-- ==== Sys2Proof/Word.lean ====
section
/-!
DEFINITION. The word types of the PackedArray core: one abbreviation per width the spec fixes (00_scope.md R5, R6).
All are unsigned (R7); bit 0 is the least significant (R6).
-/

namespace Sys2Proof

/-- A command word, `cmd[31:0]` (`CW` = 32; 30_encoding.md R66). -/
abbrev Word := BitVec 32

/-- A byte of the buffer, a mask, a `value` or the data of a response (`VW` = 8). -/
abbrev Byte := BitVec 8

/-- An `index` or a `length` (`IW` = 16). -/
abbrev Index := BitVec 16

/-- An element width, the `ebits` field and the register `EBITS` (`EW` = 4). -/
abbrev Width := BitVec 4

/-- The register `BUFSIZE` (17 bits; 10_state.md R20). -/
abbrev Size := BitVec 17

/-- A response word, `rsp[10:0]` (`RW` = 11; 30_encoding.md R70). -/
abbrev RspWord := BitVec 11

end Sys2Proof
end

