-- ==== Sys2Proof/Syntax.lean ====
section
/-!
DEFINITION. The commands of the block (30_encoding.md R66 to R69, R73) and the assembly lines that name them (R77).
-/

namespace Sys2Proof

/-- The three commands, one constructor per row of spec/opcode_table.json. Each operand is one contiguous unsigned
field of the command word, used as it stands (30_encoding.md R71), so its type is exactly the field's width. -/
inductive Instr where
  /-- CONSTRUCT `ebits, length` (40_construct.md R90). -/
  | construct (ebits : Width) (length : Index)
  /-- SET `index, value` (41_set.md R100). -/
  | set (index : Index) (value : Byte)
  /-- GET `index` (42_get.md R115). -/
  | get (index : Index)
deriving DecidableEq, Repr

/-- One assembly line with its operands as numbers (30_encoding.md R77). An operand may be out of its range here:
WellFormed.lean has the check, and such a line cannot be assembled. -/
inductive AsmLine where
  | construct (ebits length : Nat)
  | set (index value : Nat)
  | get (index : Nat)
  /-- `.word w`: any 32-bit word, for illegal encodings. -/
  | word (w : Nat)
deriving DecidableEq, Repr

end Sys2Proof
end

