-- ==== Sys2Proof/WellFormed.lean ====
section
/-!
DEFINITION. Which assembly lines can be assembled: the operand ranges of 30_encoding.md R77.
An `Instr` needs no check of its own: its operands have exactly the widths of their fields (R71), so every `Instr`
is well formed and has exactly one command word (R76).
-/

namespace Sys2Proof

/-- The operand ranges of 30_encoding.md R77. -/
def AsmLine.wellFormed : AsmLine → Bool
  | .construct ebits length => decide (ebits ≤ 15) && decide (length ≤ 65535)
  | .set index value => decide (index ≤ 65535) && decide (value ≤ 255)
  | .get index => decide (index ≤ 65535)
  | .word w => decide (w < 2 ^ 32)

end Sys2Proof
end

