-- ==== Sys2Proof/Decode.lean ====
section
/-!
DEFINITION. The decoder, total on all 2^32 words (30_encoding.md R75), the encoder (R67 to R69), and the assembler of
one line over it (R77).
-/

namespace Sys2Proof

/-- Why a word is illegal (30_encoding.md R74). The spec has one class ILLEGAL and one answer to it; the two names only
say which of R74's two causes holds (log 9). -/
inductive DecodeError where
  /-- `op` = 11. -/
  | reservedOpcode
  /-- A bit that R73 says must be zero is 1. -/
  | mustBeZeroBitSet
deriving DecidableEq, Repr

/-- A row of the opcode table: the word's fixed bits (`mask`) and their values (`pattern`). -/
structure EncodingRow where
  mnemonic : String
  mask : Word
  pattern : Word
deriving DecidableEq, Repr

/-- 30_encoding.md R67. -/
def constructRow : EncodingRow := ⟨"CONSTRUCT", 0xF00000FF#32, 0x00000000#32⟩

/-- 30_encoding.md R68. -/
def setRow : EncodingRow := ⟨"SET", 0xFF000000#32, 0x40000000#32⟩

/-- 30_encoding.md R69. -/
def getRow : EncodingRow := ⟨"GET", 0xFF0000FF#32, 0x80000000#32⟩

/-- The opcode table (30_encoding.md R73). -/
def encodingTable : List EncodingRow := [constructRow, setRow, getRow]

/-- The word's fixed bits are the row's. -/
def EncodingRow.fits (r : EncodingRow) (w : Word) : Bool := w &&& r.mask == r.pattern

/-- `op` = `cmd[31:30]` (30_encoding.md R66). -/
def opField (w : Word) : BitVec 2 := w.extractLsb' 30 2

/-- `ebits` = `cmd[27:24]`. -/
def ebitsField (w : Word) : Width := w.extractLsb' 24 4

/-- `idx` = `cmd[23:8]`: the `length` of a CONSTRUCT, the `index` of a SET or a GET. -/
def idxField (w : Word) : Index := w.extractLsb' 8 16

/-- `val` = `cmd[7:0]`. -/
def valField (w : Word) : Byte := w.extractLsb' 0 8

/-- `Decode` of 30_encoding.md R75. An `ebits` field of 0 or of 9 to 15 is not illegal here (R74). -/
def decode (w : Word) : Except DecodeError Instr :=
  if constructRow.fits w then .ok (.construct (ebitsField w) (idxField w))
  else if setRow.fits w then .ok (.set (idxField w) (valField w))
  else if getRow.fits w then .ok (.get (idxField w))
  else if opField w = 3#2 then .error .reservedOpcode
  else .error .mustBeZeroBitSet

/-- The command word of a command: its fields concatenated, the most significant first (30_encoding.md R67 to R69). -/
def encode : Instr → Word
  | .construct ebits length => 0#2 ++ 0#2 ++ ebits ++ length ++ 0#8
  | .set index value => 1#2 ++ 0#6 ++ index ++ value
  | .get index => 2#2 ++ 0#6 ++ index ++ 0#8

/-- The row of the opcode table a command belongs to. -/
def Instr.row : Instr → EncodingRow
  | .construct _ _ => constructRow
  | .set _ _ => setRow
  | .get _ => getRow

/-- The command an assembly line names; `.word` names none (30_encoding.md R77). -/
def AsmLine.instr : AsmLine → Option Instr
  | .construct ebits length => some (.construct (BitVec.ofNat 4 ebits) (BitVec.ofNat 16 length))
  | .set index value => some (.set (BitVec.ofNat 16 index) (BitVec.ofNat 8 value))
  | .get index => some (.get (BitVec.ofNat 16 index))
  | .word _ => none

/-- The word of an assembly line; a line with an operand outside its range has none (30_encoding.md R77). -/
def AsmLine.assemble (l : AsmLine) : Option Word :=
  if l.wellFormed then
    match l with
    | .construct ebits length => some (encode (.construct (BitVec.ofNat 4 ebits) (BitVec.ofNat 16 length)))
    | .set index value => some (encode (.set (BitVec.ofNat 16 index) (BitVec.ofNat 8 value)))
    | .get index => some (encode (.get (BitVec.ofNat 16 index)))
    | .word w => some (BitVec.ofNat 32 w)
  else none

/-- The host's numbering of a table word: bit 0 is the least significant bit of the one 32-bit word, and every bit at
or above `nbits` is 0. A number that does not fit in 32 bits is no command word (log 12). -/
def decodeTableWord (nbits w : Nat) : Option Instr :=
  if w % 2 ^ nbits < 2 ^ 32 then
    match decode (BitVec.ofNat 32 (w % 2 ^ nbits)) with
    | .ok i => some i
    | .error _ => none
  else none

end Sys2Proof
end

