-- ==== Sys2Proof/Machine/Flags.lean ====
section
/-!
DEFINITION. The outcome of a command. The block has no flags, condition codes or sticky error bits (10_state.md R30):
what a command reports is the status and the data of its one response (30_encoding.md R70; 60_exceptions.md R131).
-/

namespace Sys2Proof.Machine

/-- The five status values (60_exceptions.md R131; codes 5 to 7 are never produced). -/
inductive Status where
  | ok
  | indexOutOfRange
  | invalidConfiguration
  | notConstructed
  | illegalCommand
deriving DecidableEq, Repr

/-- The four error kinds (60_exceptions.md R130, R131). -/
inductive Error where
  | indexOutOfRange
  | invalidConfiguration
  | notConstructed
  | illegalCommand
deriving DecidableEq, Repr

/-- The status that reports an error. -/
def errorStatus : Error → Status
  | .indexOutOfRange => .indexOutOfRange
  | .invalidConfiguration => .invalidConfiguration
  | .notConstructed => .notConstructed
  | .illegalCommand => .illegalCommand

/-- The status codes of 60_exceptions.md R131. -/
def statusCode : Status → BitVec 3
  | .ok => 0#3
  | .indexOutOfRange => 1#3
  | .invalidConfiguration => 2#3
  | .notConstructed => 3#3
  | .illegalCommand => 4#3

/-- The response word: `status` in bits 10:8, `data` in bits 7:0 (30_encoding.md R70). -/
def responseWord (st : Status) (data : Byte) : RspWord := statusCode st ++ data

/-- `status` = `rsp[10:8]`. -/
def rspStatus (r : RspWord) : BitVec 3 := r.extractLsb' 8 3

/-- `data` = `rsp[7:0]`. -/
def rspData (r : RspWord) : Byte := r.extractLsb' 0 8

end Sys2Proof.Machine
end

