-- ==== Sys2Proof/Config.lean ====
section
/-!
DEFINITION. What is fixed for every machine and is no state: the parameters of 00_scope.md R5, and the values this
model names for the registers whose reset value the spec leaves unspecified (10_state.md R34; log 1).
The spec leaves no free value (92_eei_decisions.md, opening paragraph), so there is no opaque constant here.
-/

namespace Sys2Proof

/-- The widest legal element, 8 bits (10_state.md R22; 40_construct.md R92). -/
def Config.maxElementBits : Nat := 8

/-- `BUF_CAP`: the largest buffer, in bytes, that can arise (00_scope.md R5). -/
def Config.bufCap : Nat := 65536

/-- `EBITS` after reset. DESIGN CHOICE (log 1), unsafe: the spec leaves it unspecified, and no command reads it
before the first successful CONSTRUCT (70_reset_and_hazards.md R156). -/
def Config.resetEbits : Width := 0#4

/-- `LEN` after reset. DESIGN CHOICE (log 1), unsafe: as for `Config.resetEbits`. -/
def Config.resetLen : Index := 0#16

/-- `SETMASK` after reset. DESIGN CHOICE (log 1), unsafe: as for `Config.resetEbits`. -/
def Config.resetSetMask : Byte := 0#8

/-- `GETMASK` after reset. DESIGN CHOICE (log 1), unsafe: as for `Config.resetEbits`. -/
def Config.resetGetMask : Byte := 0#8

/-- `BUFSIZE` after reset. DESIGN CHOICE (log 1, log 2), unsafe: 0 says that no buffer byte exists yet
("neither its length nor any byte has a value", 10_state.md R34). -/
def Config.resetBufSize : Size := 0#17

end Sys2Proof
end

