-- ==== Sys2Proof/Machine/Operands.lean ====
section
/-!
DEFINITION. What the commands compute from their operands and the registers: the index mapper (20_memory.md R47 to
R50), the mask generator and the buffer size (10_state.md R24 to R26), the inserter's datapath (41_set.md R100, R103)
and the extractor's (42_get.md R115, R118; 00_scope.md R9).
-/

namespace Sys2Proof.Machine

/-- `bitOffset = index * EBITS`, the exact product (20_memory.md R47, R48). -/
def bitOffset (index : Index) (ebits : Width) : Nat := index.toNat * ebits.toNat

/-- `s = bitOffset mod 8` (R47). -/
def shiftOf (index : Index) (ebits : Width) : Nat := bitOffset index ebits % 8

/-- `b = bitOffset div 8`, the address of the one byte SET and GET touch (R47; 20_memory.md R41). -/
def byteIndex (index : Index) (ebits : Width) : Nat := bitOffset index ebits / 8

/-- The index is crossing: its span lies in two bytes (20_memory.md R50). The block never tests this (R53). -/
abbrev crossing (index : Index) (ebits : Width) : Prop := 8 < shiftOf index ebits + ebits.toNat

/-- The element widths CONSTRUCT accepts, 1 to 8 (40_construct.md R92). -/
abbrev legalWidth (ebits : Width) : Prop := ebits ≠ 0#4 ∧ ebits.toNat ≤ Config.maxElementBits

/-- `SETMASK = 256 - 2^(8 - EBITS)` (10_state.md R24). -/
def setMaskOf (ebits : Width) : Byte := BitVec.ofNat 8 (256 - 2 ^ (8 - ebits.toNat))

/-- `GETMASK = 2^EBITS - 1` (10_state.md R25). -/
def getMaskOf (ebits : Width) : Byte := BitVec.ofNat 8 (2 ^ ebits.toNat - 1)

/-- `BUFSIZE = (LEN * EBITS) div 8 + 1` (10_state.md R26). -/
def bufSizeOf (ebits : Width) (length : Index) : Size := BitVec.ofNat 17 (length.toNat * ebits.toNat / 8 + 1)

/-- The byte SET writes: bit by bit the shifted value where `SETMASK >> s` is 1, the old bit elsewhere (41_set.md R100
steps 4 to 6, R103). -/
def insertBits (old value setMask : Byte) (s : Nat) : Byte :=
  (old &&& ~~~(setMask >>> s)) ||| ((value >>> s) &&& (setMask >>> s))

/-- `rotl8(x, n)` for `0 <= n <= 7`, the circular left rotation within 8 bits (00_scope.md R9). For `n = 0` the second
term is a shift by the full width, which is 0. -/
def rotl8 (x : Byte) (n : Nat) : Byte := (x <<< n) ||| (x >>> (8 - n))

/-- `r = s + EBITS`, doc00's rotateAmount (42_get.md R115). -/
def rotateAmount (index : Index) (ebits : Width) : Nat := shiftOf index ebits + ebits.toNat

/-- The data GET returns from the byte read: rotated by `r mod 8`, then masked (42_get.md R115, R118). -/
def extractBits (raw getMask : Byte) (r : Nat) : Byte := rotl8 raw (r % 8) &&& getMask

end Sys2Proof.Machine
end

