-- ==== Sys2Proof/Machine/State.lean ====
section
/-!
DEFINITION. The state of the block as plain data (10_state.md R20), the host's inputs to it and the responses it has
produced (00_scope.md R13; 30_encoding.md R65), the state after reset (10_state.md R34), and the reasons a step can
stop.
-/

namespace Sys2Proof.Machine

/-- The bytes of `buf` that differ from 0, as (address, byte) cells in rising order of address (Ops.lean has the
canonical form). -/
abbrev Memory := List Host.Cell

/-- What the host can do to the block between two steps (30_encoding.md R65; 70_reset_and_hazards.md R155). -/
inductive Input where
  /-- A command word on the command port. -/
  | command (w : Word)
  /-- `rst` asserted and released between commands (R155). -/
  | reset
deriving DecidableEq, Repr

/-- The machine: the state record S of 10_state.md R20, and the host's side of the one command port. -/
structure State where
  /-- `CONSTRUCTED`, 1 bit: an array exists (R21). -/
  constructed : Bool
  /-- `EBITS`, 4 bits: the element width (R22). -/
  ebits : Width
  /-- `LEN`, 16 bits: the number of elements (R23). -/
  len : Index
  /-- `SETMASK`, 8 bits (R24). -/
  setMask : Byte
  /-- `GETMASK`, 8 bits (R25). -/
  getMask : Byte
  /-- `BUFSIZE`, 17 bits: the number of bytes of `buf` (R26). -/
  bufSize : Size
  /-- `buf`, the buffer (R27). -/
  buf : Memory
  /-- The model's own: what the host presents, the next input first (log 3). -/
  inputs : List Input
  /-- The model's own: the responses produced so far, the oldest first (log 4). -/
  responses : List RspWord
deriving DecidableEq, Repr

/-- Reasons the machine stops with a fault. The spec's block never stops (60_exceptions.md R141). -/
inductive Fault where
  /-- Raised by SET and GET when the byte addressed is at `BUFSIZE` or above: such a byte does not exist (10_state.md
  R27; 20_memory.md R52). Safe: it is raised only in states that break the invariant of 10_state.md R33, which no run
  reaches (log 7). -/
  | noSuchByte
deriving DecidableEq, Repr

/-- Reasons the machine refuses an instruction. -/
inductive Refusal where
  /-- Raised by the dispatcher's arm of a command that has no meaning yet. No arm raises it: all three commands are
  modelled. Safe. -/
  | notModelled (mnemonic : String)
deriving DecidableEq, Repr

/-- The state after reset (10_state.md R34; 70_reset_and_hazards.md R155): `CONSTRUCTED` = 0. The other registers are
unspecified there and take the values log 1 names; no buffer byte exists (log 2); the host has presented nothing and
the block has answered nothing. -/
def State.reset : State where
  constructed := false
  ebits := Config.resetEbits
  len := Config.resetLen
  setMask := Config.resetSetMask
  getMask := Config.resetGetMask
  bufSize := Config.resetBufSize
  buf := []
  inputs := []
  responses := []

end Sys2Proof.Machine
end

