-- ==== Sys2Proof/Machine/Ops.lean ====
section
/-!
DEFINITION. The named operations over the buffer, the registers, the response port and the host's inputs. Raising an
error is ONE operation, `raise` (00_scope.md R11; 60_exceptions.md R139). There is no return from an error to model:
nothing was saved (R139) and no command returns from one (R141).
-/

namespace Sys2Proof.Machine

/-! ### The buffer as a list of cells -/

/-- What an existing byte that is not listed reads as: 0, since CONSTRUCT zeroes every byte of the buffer it makes
(40_construct.md R93). Before the first CONSTRUCT no byte exists (log 2). -/
def Memory.unlisted : Byte := 0#8

/-- The byte at an address. -/
def Memory.get : Memory → Nat → Byte
  | [], _ => Memory.unlisted
  | (k, v) :: m, a => if k = a then v else Memory.get m a

/-- A cell in front of a list, left out when it holds what an unlisted address reads as. -/
def Memory.cell (a : Nat) (v : Byte) (m : Memory) : Memory := if v = Memory.unlisted then m else (a, v) :: m

/-- The list with one byte written, in canonical form again. -/
def Memory.set : Memory → Nat → Byte → Memory
  | [], a, v => Memory.cell a v []
  | (k, u) :: m, a, v =>
    if k < a then (k, u) :: Memory.set m a v
    else if k = a then Memory.cell a v m
    else Memory.cell a v ((k, u) :: m)

/-- Addresses rise strictly from `lo` on, and no cell holds what an unlisted address reads as. -/
def Memory.wfFrom : Nat → Memory → Bool
  | _, [] => true
  | lo, (k, v) :: m => decide (lo ≤ k) && v != Memory.unlisted && Memory.wfFrom (k + 1) m

/-- The canonical form: equal contents are equal lists. -/
def Memory.wf (m : Memory) : Bool := Memory.wfFrom 0 m

/-- Every listed address is below `n`. -/
def Memory.below (n : Nat) : Memory → Bool
  | [] => true
  | (k, _) :: m => decide (k < n) && Memory.below n m

/-! ### Access to the buffer: one byte at a time (20_memory.md R45; 00_scope.md R10) -/

/-- `MemRead(a, 1)`; a byte at `BUFSIZE` or above does not exist (10_state.md R27). -/
def readByte (a : Nat) (s : State) : Option Byte :=
  if a < s.bufSize.toNat then some (Memory.get s.buf a) else none

/-- `MemWrite(a, 1, v)`. -/
def writeByte (a : Nat) (v : Byte) (s : State) : Option State :=
  if a < s.bufSize.toNat then some { s with buf := Memory.set s.buf a v } else none

/-! ### The responses (30_encoding.md R70) -/

/-- Produce the response of a command: it changes nothing else. -/
def respond (st : Status) (data : Byte) (s : State) : State :=
  { s with responses := s.responses ++ [responseWord st data] }

/-- `raise <Error>` (00_scope.md R11; 60_exceptions.md R139, R140): the response carries the error's code and data 0;
no register and no buffer byte changes, nothing is saved, and control goes nowhere. -/
def raise (e : Error) (s : State) : State := respond (errorStatus e) 0#8 s

/-! ### The registers -/

/-- Make a new array (40_construct.md R90, R93): all six registers are written, and every byte of the new buffer is 0,
whatever the old one held (R94). -/
def newArray (ebits : Width) (length : Index) (s : State) : State :=
  { s with
    constructed := true
    ebits := ebits
    len := length
    setMask := setMaskOf ebits
    getMask := getMaskOf ebits
    bufSize := bufSizeOf ebits length
    buf := [] }

/-- The two tests that come before SET and GET, in the order of 60_exceptions.md R137: `NotConstructed` (R134), then
`index > LEN` (20_memory.md R51). -/
def accessError (index : Index) (s : State) : Option Error :=
  if s.constructed = false then some .notConstructed
  else if s.len < index then some .indexOutOfRange
  else none

/-! ### The host's side -/

/-- Reset between commands (70_reset_and_hazards.md R155): S becomes the reset state. What the host still has to
present and what it has already received stay (log 6). -/
def resetBlock (s : State) : State := { State.reset with inputs := s.inputs, responses := s.responses }

/-- The state once the host's next input has been accepted and `rest` remains. -/
def accept (rest : List Input) (s : State) : State := { s with inputs := rest }

/-- The host presents one more command word, to be accepted next. -/
def present (w : Word) (s : State) : State := { s with inputs := .command w :: s.inputs }

end Sys2Proof.Machine
end

