-- ==== Sys2Proof/Machine/Construct.lean ====
section
/-!
DEFINITION. The meaning of CONSTRUCT (40_construct.md).
-/

namespace Sys2Proof.Machine

/-- CONSTRUCT `ebits, length` (40_construct.md R90): refused with `InvalidConfiguration` when `ebits` is 0 or above 8
(R92), whatever the state (60_exceptions.md R133); else a new, all-zero array, answered (`OK`, 0). -/
def execConstruct (ebits : Width) (length : Index) (s : State) : Host.Outcome State Fault Refusal :=
  if legalWidth ebits then .next (respond .ok 0#8 (newArray ebits length s))
  else .next (raise .invalidConfiguration s)

end Sys2Proof.Machine
end

