-- ==== Sys2Proof/Machine/Get.lean ====
section
/-!
DEFINITION. The meaning of GET (42_get.md).
-/

namespace Sys2Proof.Machine

/-- GET `index` (42_get.md R115): after the two tests, the one byte `buf[b]` is read, rotated left by
`(s + EBITS) mod 8` and masked with `GETMASK`; answered (`OK`, data). It changes nothing (R123). -/
def execGet (index : Index) (s : State) : Host.Outcome State Fault Refusal :=
  match accessError index s with
  | some e => .next (raise e s)
  | none =>
    match readByte (byteIndex index s.ebits) s with
    | none => .fault .noSuchByte
    | some raw => .next (respond .ok (extractBits raw s.getMask (rotateAmount index s.ebits)) s)

end Sys2Proof.Machine
end

