-- ==== Sys2Proof/Machine/Set.lean ====
section
/-!
DEFINITION. The meaning of SET (41_set.md).
-/

namespace Sys2Proof.Machine

/-- SET `index, value` (41_set.md R100): after the two tests, the one byte `buf[b]` is read and written back with the
bits under `SETMASK >> s` taken from `value >> s`; answered (`OK`, 0). A crossing index is no error (R107). -/
def execSet (index : Index) (value : Byte) (s : State) : Host.Outcome State Fault Refusal :=
  match accessError index s with
  | some e => .next (raise e s)
  | none =>
    match readByte (byteIndex index s.ebits) s with
    | none => .fault .noSuchByte
    | some old =>
      match writeByte (byteIndex index s.ebits) (insertBits old value s.setMask (shiftOf index s.ebits)) s with
      | none => .fault .noSuchByte
      | some s' => .next (respond .ok 0#8 s')

end Sys2Proof.Machine
end

