-- ==== Sys2Proof/Machine/Dispatch.lean ====
section
/-! DEFINITION. The dispatcher: one arm per command, each a call of that command's meaning. -/

namespace Sys2Proof.Machine

def exec (i : Instr) (s : State) : Host.Outcome State Fault Refusal :=
  match i with
  | .construct ebits length => Sys2Proof.Machine.execConstruct ebits length s
  | .set index value => Sys2Proof.Machine.execSet index value s
  | .get index => Sys2Proof.Machine.execGet index s

end Sys2Proof.Machine
end

