-- ==== Sys2Proof/Machine/Command.lean ====
section
/-!
DEFINITION. `Step(S, cmd)` of 00_scope.md R13 for one accepted command word.
-/

namespace Sys2Proof.Machine

/-- A word that decodes runs its command; any other word is answered `IllegalCommand`, before any other test
(30_encoding.md R74; 60_exceptions.md R135, R137). -/
def stepCommand (w : Word) (s : State) : Host.Outcome State Fault Refusal :=
  match decode w with
  | .ok i => exec i s
  | .error _ => .next (raise .illegalCommand s)

end Sys2Proof.Machine
end

