-- ==== Sys2Proof/Machine/Step.lean ====
section
/-!
DEFINITION. One step of the machine: the host's next input is accepted and carried out whole (20_memory.md R56, R57).
-/

namespace Sys2Proof.Machine

/-- With nothing presented the block waits (30_encoding.md R65; log 5). A reset replaces S by the reset state
(70_reset_and_hazards.md R155). A command word is executed (00_scope.md R13). -/
def step (s : State) : Host.Outcome State Fault Refusal :=
  match s.inputs with
  | [] => .next s
  | .reset :: rest => .next (resetBlock (accept rest s))
  | .command w :: rest => stepCommand w (accept rest s)

/-- The host presents the word `w` (its bits at `nbits` and above taken as 0) as its next command: commands are not
fetched but come from the host one by one (10_state.md R29; log 12). -/
def State.withFetchWord (s : State) (nbits w : Nat) : State := present (BitVec.ofNat 32 (w % 2 ^ nbits)) s

end Sys2Proof.Machine
end

