-- ==== Sys2Proof/Machine/Assembler.lean ====
section
/-!
DEFINITION. The assembler syntax of 30_encoding.md R77 read from the characters of one line. R77 fixes the mnemonics in
capitals, operands in decimal or `0x` hexadecimal separated by a comma, and `;` starting a comment; that spaces and
tabs separate tokens, and that a line may hold only a comment, is this model's reading (log 13).
-/

namespace Sys2Proof.Machine

/-- The line up to its comment. -/
def stripComment : List Char → List Char
  | [] => []
  | c :: cs => if c = ';' then [] else c :: stripComment cs

/-- A finished token in front of the others; an empty one is dropped. -/
def emitToken (t : List Char) (ts : List (List Char)) : List (List Char) := if t = [] then ts else t :: ts

/-- The tokens of a line: a comma is a token of its own; spaces and tabs only separate. `cur` is the token read so
far. -/
def lexLine : List Char → List Char → List (List Char)
  | cur, [] => emitToken cur []
  | cur, c :: cs =>
    if c = ' ' ∨ c = '\t' then emitToken cur (lexLine [] cs)
    else if c = ',' then emitToken cur ([','] :: lexLine [] cs)
    else lexLine (cur ++ [c]) cs

/-- The value of a digit in a base of at most 16. -/
def digitValue (base : Nat) (c : Char) : Option Nat :=
  let n := c.toNat
  let v :=
    if 48 ≤ n ∧ n ≤ 57 then n - 48
    else if 65 ≤ n ∧ n ≤ 70 then n - 55
    else if 97 ≤ n ∧ n ≤ 102 then n - 87
    else 16
  if v < base then some v else none

/-- The number a run of digits writes, after the digits already read. -/
def digitsValue (base : Nat) : Nat → List Char → Option Nat
  | acc, [] => some acc
  | acc, c :: cs =>
    match digitValue base c with
    | none => none
    | some v => digitsValue base (acc * base + v) cs

/-- An operand in decimal or `0x` hexadecimal. -/
def parseNumber : List Char → Option Nat
  | [] => none
  | ['0', 'x'] => none
  | '0' :: 'x' :: ds => digitsValue 16 0 ds
  | ds => digitsValue 10 0 ds

/-- A line with one operand. -/
def parseOne (f : Nat → AsmLine) (a : List Char) : Option AsmLine :=
  match parseNumber a with
  | none => none
  | some x => some (f x)

/-- A line with two operands. -/
def parseTwo (f : Nat → Nat → AsmLine) (a b : List Char) : Option AsmLine :=
  match parseNumber a, parseNumber b with
  | some x, some y => some (f x y)
  | _, _ => none

/-- The tokens as a line: mnemonics in capitals, operands in the order of R77. -/
def parseTokens : List (List Char) → Option AsmLine
  | [m, a, [','], b] =>
    if m = ['C', 'O', 'N', 'S', 'T', 'R', 'U', 'C', 'T'] then parseTwo .construct a b
    else if m = ['S', 'E', 'T'] then parseTwo .set a b
    else none
  | [m, a] =>
    if m = ['G', 'E', 'T'] then parseOne .get a
    else if m = ['.', 'w', 'o', 'r', 'd'] then parseOne .word a
    else none
  | _ => none

/-- The command word an assembly line stands for. A line of spaces and comment has none; a line that is none of R77's
four forms, or has an operand outside its range, cannot be assembled and has none either. -/
def assembleText (line : List Char) : Option Word :=
  match parseTokens (lexLine [] (stripComment line)) with
  | none => none
  | some l => l.assemble

end Sys2Proof.Machine
end

