-- ==== Sys2Proof/Safety.lean ====
section
/-!
DEFINITION. The terms claims are stated in: the invariant of 10_state.md R33, the buffer read as a bitstream
(20_memory.md R43), the span of an element (R49), and a run of command words (00_scope.md R13).
-/

namespace Sys2Proof.Machine

/-- What 10_state.md R33 says of a constructed block: (a) to (e). For (e): no listed address is at `BUFSIZE` or
above, so the buffer has exactly the bytes 0 to `BUFSIZE - 1`. -/
structure ArrayInv (s : State) : Prop where
  ebits_pos : 1 ≤ s.ebits.toNat
  ebits_le : s.ebits.toNat ≤ 8
  setMask_eq : s.setMask.toNat = 256 - 2 ^ (8 - s.ebits.toNat)
  getMask_eq : s.getMask.toNat = 2 ^ s.ebits.toNat - 1
  bufSize_eq : s.bufSize.toNat = s.len.toNat * s.ebits.toNat / 8 + 1
  buf_below : Memory.below s.bufSize.toNat s.buf = true

/-- The invariant every step keeps: the memory list is canonical, and R33 holds whenever an array exists. -/
structure StateInv (s : State) : Prop where
  mem_wf : Memory.wf s.buf = true
  array : s.constructed = true → ArrayInv s

/-- Position `p` of the bitstream: bit `7 - (p mod 8)` of byte `p div 8`, none past the buffer (20_memory.md R43). -/
def bitAt (p : Nat) (s : State) : Option Bool := (readByte (p / 8) s).map (fun v => v.getMsbD (p % 8))

/-- Position `p` belongs to the span of element `index` (20_memory.md R49). -/
abbrev inSpan (index : Index) (ebits : Width) (p : Nat) : Prop :=
  bitOffset index ebits ≤ p ∧ p < bitOffset index ebits + ebits.toNat

/-- The command SET or GET of this index passes both of its tests (60_exceptions.md R137). -/
abbrev Admits (s : State) (index : Index) : Prop := s.constructed = true ∧ index ≤ s.len

/-- The state with exactly these command words presented, in this order. -/
def presenting (ws : List Word) (s : State) : State := { s with inputs := ws.map Input.command }

/-- A run of these command words from `s`, one step each (00_scope.md R13). -/
def runWords (ws : List Word) (s : State) : Host.Outcome State Fault Refusal :=
  Host.Core.run Sys2Proof.core ws.length (presenting ws s)

end Sys2Proof.Machine
end

