-- ==== Sys2Proof/Certificates/Slice0/Obligations.lean ====
section
/-!
DEFINITION. The statements for the provers, in the order of OBLIGATIONS.json. Response words are written as the numbers
of 30_encoding.md R70 and 60_exceptions.md R131: 0x000 is (`OK`, 0), 0x100 `IndexOutOfRange`, 0x200
`InvalidConfiguration`, 0x300 `NotConstructed`, 0x400 `IllegalCommand`.
-/

open Sys2Proof Sys2Proof.Machine

/-! ### Encodings -/

/-- 30_encoding.md R78: the worked encodings, each assembled from its text, decoded from its word, and, for the two
that decode and fail, run. -/
def Obligations.WorkedEncodings : Prop :=
  (assembleText "CONSTRUCT 4, 5".toList = some 0x04000500#32 ∧
    decode 0x04000500#32 = .ok (.construct 4#4 5#16)) ∧
  (assembleText "CONSTRUCT 8, 65535".toList = some 0x08FFFF00#32 ∧
    decode 0x08FFFF00#32 = .ok (.construct 8#4 0xFFFF#16)) ∧
  (assembleText "CONSTRUCT 9, 5".toList = some 0x09000500#32 ∧
    decode 0x09000500#32 = .ok (.construct 9#4 5#16) ∧
    ∀ s : State, stepCommand 0x09000500#32 s = .next { s with responses := s.responses ++ [0x200#11] }) ∧
  (assembleText "SET 1, 174".toList = some 0x400001AE#32 ∧ decode 0x400001AE#32 = .ok (.set 1#16 0xAE#8)) ∧
  (assembleText "SET 65535, 255".toList = some 0x40FFFFFF#32 ∧
    decode 0x40FFFFFF#32 = .ok (.set 0xFFFF#16 0xFF#8)) ∧
  (assembleText "GET 1".toList = some 0x80000100#32 ∧ decode 0x80000100#32 = .ok (.get 1#16)) ∧
  (assembleText "GET 0".toList = some 0x80000000#32 ∧ decode 0x80000000#32 = .ok (.get 0#16)) ∧
  (assembleText ".word 0xC0000000".toList = some 0xC0000000#32 ∧
    ∃ r, decode 0xC0000000#32 = .error r) ∧
  (assembleText ".word 0x80000101".toList = some 0x80000101#32 ∧
    ∃ r, decode 0x80000101#32 = .error r) ∧
  (assembleText ".word 0x41000000".toList = some 0x41000000#32 ∧
    ∃ r, decode 0x41000000#32 = .error r) ∧
  (assembleText ".word 0x10000000".toList = some 0x10000000#32 ∧
    ∃ r, decode 0x10000000#32 = .error r) ∧
  (assembleText ".word 0x00000000".toList = some 0#32 ∧ assembleText "CONSTRUCT 0, 0".toList = some 0#32 ∧
    decode 0#32 = .ok (.construct 0#4 0#16) ∧
    ∀ s : State, stepCommand 0#32 s = .next { s with responses := s.responses ++ [0x200#11] })

/-- 30_encoding.md R67, R68, R69: each command's word is its pattern of fields, has the row's fixed bits under the
row's mask, and gives its operands back at the places the rule says. -/
def Obligations.EncodedFieldsStandWhereSaid : Prop :=
  (∀ (ebits : Width) (length : Index),
    encode (.construct ebits length) = 0#2 ++ 0#2 ++ ebits ++ length ++ 0#8 ∧
    encode (.construct ebits length) &&& 0xF00000FF#32 = 0x00000000#32 ∧
    (encode (.construct ebits length)).extractLsb' 24 4 = ebits ∧
    (encode (.construct ebits length)).extractLsb' 8 16 = length) ∧
  (∀ (index : Index) (value : Byte),
    encode (.set index value) = 1#2 ++ 0#6 ++ index ++ value ∧
    encode (.set index value) &&& 0xFF000000#32 = 0x40000000#32 ∧
    (encode (.set index value)).extractLsb' 8 16 = index ∧
    (encode (.set index value)).extractLsb' 0 8 = value) ∧
  (∀ index : Index,
    encode (.get index) = 2#2 ++ 0#6 ++ index ++ 0#8 ∧
    encode (.get index) &&& 0xFF0000FF#32 = 0x80000000#32 ∧
    (encode (.get index)).extractLsb' 8 16 = index)

/-- 30_encoding.md R76: decoding is the inverse of encoding on legal words, encoding is injective, and so no two words
decode to one command (no field of a legal word is ignored). -/
def Obligations.DecodeInvertsEncode : Prop :=
  (∀ (w : Word) (i : Instr), decode w = .ok i ↔ w = encode i) ∧
  (∀ i j : Instr, encode i = encode j → i = j) ∧
  (∀ (w w' : Word) (i : Instr), decode w = .ok i → decode w' = .ok i → w = w')

/-- 30_encoding.md R73: the opcode map, bit by bit; every other word is illegal. -/
def Obligations.DecoderFollowsOpcodeMap : Prop :=
  ∀ w : Word,
    (∀ (ebits : Width) (length : Index), decode w = .ok (.construct ebits length) ↔
      w.extractLsb' 30 2 = 0#2 ∧ w.extractLsb' 28 2 = 0#2 ∧ w.extractLsb' 0 8 = 0#8 ∧
        ebits = w.extractLsb' 24 4 ∧ length = w.extractLsb' 8 16) ∧
    (∀ (index : Index) (value : Byte), decode w = .ok (.set index value) ↔
      w.extractLsb' 30 2 = 1#2 ∧ w.extractLsb' 24 6 = 0#6 ∧
        index = w.extractLsb' 8 16 ∧ value = w.extractLsb' 0 8) ∧
    (∀ index : Index, decode w = .ok (.get index) ↔
      w.extractLsb' 30 2 = 2#2 ∧ w.extractLsb' 24 6 = 0#6 ∧ w.extractLsb' 0 8 = 0#8 ∧
        index = w.extractLsb' 8 16) ∧
    ((∃ r, decode w = .error r) ↔
      w.extractLsb' 30 2 = 3#2 ∨
      (w.extractLsb' 30 2 = 0#2 ∧ (w.extractLsb' 28 2 ≠ 0#2 ∨ w.extractLsb' 0 8 ≠ 0#8)) ∨
      (w.extractLsb' 30 2 = 1#2 ∧ w.extractLsb' 24 6 ≠ 0#6) ∨
      (w.extractLsb' 30 2 = 2#2 ∧ (w.extractLsb' 24 6 ≠ 0#6 ∨ w.extractLsb' 0 8 ≠ 0#8)))

/-- 30_encoding.md R75, its count of the 2^32 words by what they decode to. -/
def Obligations.CommandWordCounts : Prop :=
  Nat.card { w : Word // ∃ e l, decode w = .ok (.construct e l) } = 2 ^ 20 ∧
  Nat.card { w : Word // ∃ i v, decode w = .ok (.set i v) } = 2 ^ 24 ∧
  Nat.card { w : Word // ∃ i, decode w = .ok (.get i) } = 2 ^ 16 ∧
  Nat.card { w : Word // ∃ r, decode w = .error r } = 2 ^ 32 - 2 ^ 24 - 2 ^ 20 - 2 ^ 16

/-- 30_encoding.md R77: a line can be assembled exactly when its operands are in range, and its word then decodes to
the command it names with those operands; `.word` gives the number itself. -/
def Obligations.AssemblyOperandRanges : Prop :=
  (∀ e l : Nat, ((AsmLine.construct e l).assemble.isSome ↔ e ≤ 15 ∧ l ≤ 65535) ∧
    ∀ w, (AsmLine.construct e l).assemble = some w →
      ∃ (ebits : Width) (length : Index), decode w = .ok (.construct ebits length) ∧
        ebits.toNat = e ∧ length.toNat = l) ∧
  (∀ i v : Nat, ((AsmLine.set i v).assemble.isSome ↔ i ≤ 65535 ∧ v ≤ 255) ∧
    ∀ w, (AsmLine.set i v).assemble = some w →
      ∃ (index : Index) (value : Byte), decode w = .ok (.set index value) ∧
        index.toNat = i ∧ value.toNat = v) ∧
  (∀ i : Nat, ((AsmLine.get i).assemble.isSome ↔ i ≤ 65535) ∧
    ∀ w, (AsmLine.get i).assemble = some w →
      ∃ index : Index, decode w = .ok (.get index) ∧ index.toNat = i) ∧
  (∀ n : Nat, ((AsmLine.word n).assemble.isSome ↔ n < 2 ^ 32) ∧
    ∀ w, (AsmLine.word n).assemble = some w → w.toNat = n)

/-! ### Reset, steps and the invariant -/

/-- 10_state.md R34 and 70_reset_and_hazards.md R158: after reset no array exists, and SET and GET are answered
`NotConstructed` without effect. Nothing is said of the registers R34 leaves unspecified. -/
def Obligations.ResetLeavesNothingConstructed : Prop :=
  State.reset.constructed = false ∧
  (∀ (index : Index) (value : Byte),
    exec (.set index value) State.reset = .next { State.reset with responses := [0x300#11] }) ∧
  (∀ index : Index, exec (.get index) State.reset = .next { State.reset with responses := [0x300#11] })

/-- The reset state meets the invariant of `StepKeepsInvariant`. -/
def Obligations.ResetMeetsInvariant : Prop := StateInv State.reset

/-- 70_reset_and_hazards.md R155: from EVERY state a reset between commands gives the reset state, and no response.
The values that state has beside `CONSTRUCTED` = 0 are the model's choice (log 1, log 2), and so is that what the host
still presents and has already received stays (log 6). -/
def Obligations.ResetReplacesAnyState : Prop :=
  ∀ (s : State) (rest : List Input), s.inputs = .reset :: rest →
    step s = .next { State.reset with inputs := rest, responses := s.responses }

/-- The model's choice (log 5): with nothing presented the block waits, unchanged. -/
def Obligations.IdleBlockWaits : Prop := ∀ s : State, s.inputs = [] → step s = .next s

/-- 00_scope.md R13, 30_encoding.md R75: a step whose next input is a word that decodes to `i` is `exec i` on the state
with that word taken off the host's list; nothing else is added around `exec`. -/
def Obligations.StepRunsDecodedCommand : Prop :=
  ∀ (s : State) (w : Word) (rest : List Input) (i : Instr),
    s.inputs = .command w :: rest → decode w = .ok i → step s = exec i { s with inputs := rest }

/-- 60_exceptions.md R135: every word with `op` = 11 or a must-be-zero bit set is answered (`IllegalCommand`, 0), in
every state, and nothing changes. -/
def Obligations.IllegalWordAnswered : Prop :=
  ∀ (s : State) (w : Word) (rest : List Input), s.inputs = .command w :: rest →
    (w.extractLsb' 30 2 = 3#2 ∨
      (w.extractLsb' 30 2 = 0#2 ∧ (w.extractLsb' 28 2 ≠ 0#2 ∨ w.extractLsb' 0 8 ≠ 0#8)) ∨
      (w.extractLsb' 30 2 = 1#2 ∧ w.extractLsb' 24 6 ≠ 0#6) ∨
      (w.extractLsb' 30 2 = 2#2 ∧ (w.extractLsb' 24 6 ≠ 0#6 ∨ w.extractLsb' 0 8 ≠ 0#8))) →
    step s = .next { s with inputs := rest, responses := s.responses ++ [0x400#11] }

/-- 10_state.md R33: every step keeps the invariant (a) to (e), from every state that has it. `StateInv` also says that the
memory list is canonical, which is the model's own (log 2). -/
def Obligations.StepKeepsInvariant : Prop :=
  ∀ s t : State, StateInv s → step s = .next t → StateInv t

/-- 60_exceptions.md R141, 30_encoding.md R65: from every state that meets the invariant, every sequence of command
words is taken whole, with exactly one response a word. -/
def Obligations.EveryCommandIsAnswered : Prop :=
  ∀ (ws : List Word) (s : State), StateInv s →
    ∃ (t : State) (rs : List RspWord), runWords ws s = .next t ∧ StateInv t ∧ t.inputs = [] ∧
      t.responses = s.responses ++ rs ∧ rs.length = ws.length

/-- A step takes the host's next input and alters no later one, and it alters no earlier response. For a command word
this is 20_memory.md R56 and R61. That a reset leaves the further inputs and the responses already given is the model's
choice (log 6), and so is that a step with nothing presented leaves both lists as they are (log 5). -/
def Obligations.InputsTakenInOrder : Prop :=
  ∀ s t : State, step s = .next t →
    t.inputs = s.inputs.tail ∧ ∃ rs, t.responses = s.responses ++ rs ∧ rs.length ≤ 1

/-! ### CONSTRUCT -/

/-- 40_construct.md R90 (with R92 and R95): refused widths change nothing; legal ones write all six registers and every
byte of the buffer. -/
def Obligations.ConstructMakesNewArray : Prop :=
  ∀ (ebits : Width) (length : Index) (s : State),
    encode (.construct ebits length) = 0#2 ++ 0#2 ++ ebits ++ length ++ 0#8 ∧
    (ebits = 0#4 ∨ 8 < ebits.toNat →
      exec (.construct ebits length) s = .next { s with responses := s.responses ++ [0x200#11] }) ∧
    (1 ≤ ebits.toNat → ebits.toNat ≤ 8 →
      ∃ t : State, exec (.construct ebits length) s = .next t ∧
        t.constructed = true ∧ t.ebits = ebits ∧ t.len = length ∧
        t.setMask.toNat = 256 - 2 ^ (8 - ebits.toNat) ∧ t.getMask.toNat = 2 ^ ebits.toNat - 1 ∧
        t.bufSize.toNat = length.toNat * ebits.toNat / 8 + 1 ∧
        (∀ a, a < t.bufSize.toNat → readByte a t = some 0#8) ∧
        (∀ a, t.bufSize.toNat ≤ a → readByte a t = none) ∧
        t.inputs = s.inputs ∧ t.responses = s.responses ++ [0x000#11])

/-- 40_construct.md R94: nothing of the old array survives a successful CONSTRUCT, whatever the old state was. -/
def Obligations.NewArrayForgetsOld : Prop :=
  ∀ (ebits : Width) (length : Index) (s s' : State), 1 ≤ ebits.toNat → ebits.toNat ≤ 8 →
    ∃ t t' : State, exec (.construct ebits length) s = .next t ∧ exec (.construct ebits length) s' = .next t' ∧
      t' = { t with inputs := s'.inputs, responses := s'.responses ++ [0x000#11] }

/-- 10_state.md R35: the masks CONSTRUCT stores, for every legal width. -/
def Obligations.MaskTable : Prop :=
  ∀ (length : Index) (s : State) (row : Width × Byte × Byte),
    row ∈ [(1#4, 0x80#8, 0x01#8), (2#4, 0xC0#8, 0x03#8), (3#4, 0xE0#8, 0x07#8), (4#4, 0xF0#8, 0x0F#8),
      (5#4, 0xF8#8, 0x1F#8), (6#4, 0xFC#8, 0x3F#8), (7#4, 0xFE#8, 0x7F#8), (8#4, 0xFF#8, 0xFF#8)] →
    ∃ t : State, exec (.construct row.1 length) s = .next t ∧ t.setMask = row.2.1 ∧ t.getMask = row.2.2

/-- 10_state.md R26 (90_conflicts.md C1): the buffer size against `ceil(length * ebits / 8)`: one more exactly when the
product is a multiple of 8. -/
def Obligations.BufferSizeAgainstCeiling : Prop :=
  ∀ (ebits : Width) (length : Index) (s : State), 1 ≤ ebits.toNat → ebits.toNat ≤ 8 →
    ∃ t : State, exec (.construct ebits length) s = .next t ∧
      t.bufSize.toNat = (length.toNat * ebits.toNat + 7) / 8 +
        (if length.toNat * ebits.toNat % 8 = 0 then 1 else 0)

/-- 42_get.md R124: after a successful CONSTRUCT, and with no SET and no further successful CONSTRUCT since, every
accepted GET returns 0. -/
def Obligations.NewArrayReadsZero : Prop :=
  ∀ (ebits : Width) (length index : Index) (ws : List Word) (s : State),
    1 ≤ ebits.toNat → ebits.toNat ≤ 8 → index ≤ length →
    (∀ w ∈ ws, ∀ i v, decode w ≠ .ok (.set i v)) →
    (∀ w ∈ ws, ∀ e l, decode w = .ok (.construct e l) → e = 0#4 ∨ 8 < e.toNat) →
    ∃ (t : State) (rs : List RspWord),
      runWords (encode (.construct ebits length) :: ws ++ [encode (.get index)]) s = .next t ∧
      t.responses = s.responses ++ rs ++ [0x000#11]

/-! ### SET -/

/-- 41_set.md R100: the two refusals, then the algorithm on the one byte `buf[b]`, with everything else unchanged. -/
def Obligations.SetFollowsAlgorithm : Prop :=
  ∀ (index : Index) (value : Byte) (s : State),
    encode (.set index value) = 1#2 ++ 0#6 ++ index ++ value ∧
    (s.constructed = false →
      exec (.set index value) s = .next { s with responses := s.responses ++ [0x300#11] }) ∧
    (s.constructed = true → s.len < index →
      exec (.set index value) s = .next { s with responses := s.responses ++ [0x100#11] }) ∧
    (StateInv s → s.constructed = true → index ≤ s.len →
      ∃ (old : Byte) (t : State),
        readByte (index.toNat * s.ebits.toNat / 8) s = some old ∧
        exec (.set index value) s = .next t ∧
        readByte (index.toNat * s.ebits.toNat / 8) t =
          some ((old &&& ~~~(s.setMask >>> (index.toNat * s.ebits.toNat % 8))) |||
            ((value >>> (index.toNat * s.ebits.toNat % 8)) &&&
              (s.setMask >>> (index.toNat * s.ebits.toNat % 8)))) ∧
        (∀ a, a ≠ index.toNat * s.ebits.toNat / 8 → readByte a t = readByte a s) ∧
        t = { s with buf := t.buf, responses := s.responses ++ [0x000#11] })

/-- 41_set.md R105, R107, R108, in the bitstream of 20_memory.md R43: SET stores the field of the value, its top bit
first, at the positions of its element's span that lie in byte `b`, and changes no other position. -/
def Obligations.SetWritesItsSpanInOneByte : Prop :=
  ∀ (index : Index) (value : Byte) (s : State), StateInv s → s.constructed = true → index ≤ s.len →
    ∃ t : State, exec (.set index value) s = .next t ∧
      ∀ p, bitAt p t =
        if p / 8 = byteIndex index s.ebits ∧ inSpan index s.ebits p
        then some (value.getMsbD (p - bitOffset index s.ebits))
        else bitAt p s

/-- 41_set.md R108, R111, 70_reset_and_hazards.md R168: a SET changes no bit of another element's span, crossing or
not, the slack index included. -/
def Obligations.SetLeavesOtherElements : Prop :=
  ∀ (index other : Index) (value : Byte) (s : State), StateInv s → s.constructed = true → index ≤ s.len →
    other ≠ index →
    ∃ t : State, exec (.set index value) s = .next t ∧
      ∀ p, inSpan other s.ebits p → bitAt p t = bitAt p s

/-- 41_set.md R109: of two SETs to one index the later one wins entirely; with equal values, twice is once. -/
def Obligations.LaterSetWins : Prop :=
  ∀ (index : Index) (value value' : Byte) (s : State), StateInv s → s.constructed = true → index ≤ s.len →
    ∃ t u : State, exec (.set index value) s = .next t ∧ exec (.set index value') s = .next u ∧
      exec (.set index value') t = .next { u with responses := s.responses ++ [0x000#11, 0x000#11] }

/-- 41_set.md R110: SETs of two different indices commute, whether or not they hit the same byte. -/
def Obligations.SetsOfDifferentIndicesCommute : Prop :=
  ∀ (i j : Index) (v v' : Byte) (s : State), StateInv s → s.constructed = true → i ≤ s.len → j ≤ s.len → i ≠ j →
    ∃ t u r : State, exec (.set i v) s = .next t ∧ exec (.set j v') s = .next u ∧
      exec (.set j v') t = .next r ∧ exec (.set i v) u = .next r

/-- 41_set.md R106: carrying the value as 8 bits loses nothing: for every natural number `V` the algorithm on `V`
itself writes the byte the block writes for `V mod 256`. -/
def Obligations.WideValuesTruncate : Prop :=
  ∀ (V : Nat) (old setMask : Byte) (s : Nat),
    (insertBits old (BitVec.ofNat 8 V) setMask s).toNat =
      (old.toNat &&& (255 - (setMask.toNat >>> s))) ||| ((V >>> s) &&& (setMask.toNat >>> s))

/-- 41_set.md R101, its footprint: two states that agree on `CONSTRUCTED`, `LEN`, `EBITS`, `SETMASK` and, where SET is
accepted, on `buf[b]` get the same response and the same new `buf[b]`; so SET reads neither `GETMASK` nor any other
byte. -/
def Obligations.SetFootprint : Prop :=
  ∀ (index : Index) (value : Byte) (s s' t : State),
    Memory.wf s.buf = true → Memory.wf s'.buf = true →
    s'.constructed = s.constructed → s'.len = s.len → s'.ebits = s.ebits → s'.setMask = s.setMask →
    (Admits s index → readByte (byteIndex index s.ebits) s' = readByte (byteIndex index s.ebits) s) →
    exec (.set index value) s = .next t →
    ∃ (t' : State) (r : RspWord), exec (.set index value) s' = .next t' ∧
      t.responses = s.responses ++ [r] ∧ t'.responses = s'.responses ++ [r] ∧
      (Admits s index → readByte (byteIndex index s.ebits) t' = readByte (byteIndex index s.ebits) t)

/-! ### GET -/

/-- 42_get.md R115: the two refusals, then the data from the one byte `buf[b]`; S is unchanged in every case. -/
def Obligations.GetFollowsAlgorithm : Prop :=
  ∀ (index : Index) (s : State),
    encode (.get index) = 2#2 ++ 0#6 ++ index ++ 0#8 ∧
    (s.constructed = false →
      exec (.get index) s = .next { s with responses := s.responses ++ [0x300#11] }) ∧
    (s.constructed = true → s.len < index →
      exec (.get index) s = .next { s with responses := s.responses ++ [0x100#11] }) ∧
    (StateInv s → s.constructed = true → index ≤ s.len →
      ∃ raw : Byte, readByte (index.toNat * s.ebits.toNat / 8) s = some raw ∧
        exec (.get index) s = .next { s with
          responses := s.responses ++
            [0#3 ++ (raw.rotateLeft ((index.toNat * s.ebits.toNat % 8 + s.ebits.toNat) % 8) &&& s.getMask)] })

/-- 42_get.md R119, R120, in the bitstream of 20_memory.md R43: data bit `E-1-k` is position `k` of the element's span,
and past the end of byte `b` the positions start again at the top of the SAME byte; data bits `E` and above are 0. -/
def Obligations.GetReadsItsSpanWrappedInOneByte : Prop :=
  ∀ (index : Index) (s : State), StateInv s → s.constructed = true → index ≤ s.len →
    ∃ d : Byte, exec (.get index) s = .next { s with responses := s.responses ++ [0#3 ++ d] } ∧
      (∀ k, k < s.ebits.toNat →
        some (d.getLsbD (s.ebits.toNat - 1 - k)) =
          bitAt (8 * byteIndex index s.ebits + (shiftOf index s.ebits + k) % 8) s) ∧
      (∀ j, s.ebits.toNat ≤ j → d.getLsbD j = false)

/-- 00_scope.md R9: the rotation takes bit `p` to bit `(p + n) mod 8`, for every amount 0 to 7. -/
def Obligations.RotationIsCircular : Prop :=
  ∀ (x : Byte) (n p : Nat), n ≤ 7 → p ≤ 7 → (rotl8 x n).getLsbD ((p + n) % 8) = x.getLsbD p

/-- 42_get.md R116, its footprint: two states that agree on `CONSTRUCTED`, `LEN`, `EBITS`, `GETMASK` and, where GET is
accepted, on `buf[b]` get the same response; so GET reads neither `SETMASK` nor any other byte. -/
def Obligations.GetFootprint : Prop :=
  ∀ (index : Index) (s s' t : State),
    s'.constructed = s.constructed → s'.len = s.len → s'.ebits = s.ebits → s'.getMask = s.getMask →
    (Admits s index → readByte (byteIndex index s.ebits) s' = readByte (byteIndex index s.ebits) s) →
    exec (.get index) s = .next t →
    ∃ r : RspWord, t.responses = s.responses ++ [r] ∧
      exec (.get index) s' = .next { s' with responses := s'.responses ++ [r] }

/-- 42_get.md R121: the round trip at a non-crossing index, over any commands in between but a SET of that index and a
successful CONSTRUCT: GET returns `v div 2^(8-E)`. -/
def Obligations.RoundTripAtNonCrossingIndex : Prop :=
  ∀ (index : Index) (value : Byte) (ws : List Word) (s : State),
    StateInv s → s.constructed = true → index ≤ s.len → ¬ crossing index s.ebits →
    (∀ w ∈ ws, ∀ v, decode w ≠ .ok (.set index v)) →
    (∀ w ∈ ws, ∀ e l, decode w = .ok (.construct e l) → e = 0#4 ∨ 8 < e.toNat) →
    ∃ (t : State) (rs : List RspWord) (d : Byte),
      runWords (encode (.set index value) :: ws ++ [encode (.get index)]) s = .next t ∧
      t.responses = s.responses ++ rs ++ [0#3 ++ d] ∧
      d.toNat = value.toNat / 2 ^ (8 - s.ebits.toNat)

/-- 42_get.md R122: the round trip at a crossing index: the upper `8-s` bits of the data are the field's upper bits,
the lower `c` bits are the top `c` bits of byte `b`. -/
def Obligations.RoundTripAtCrossingIndex : Prop :=
  ∀ (index : Index) (value : Byte) (s : State),
    StateInv s → s.constructed = true → index ≤ s.len → crossing index s.ebits →
    ∃ (t : State) (old d : Byte),
      readByte (byteIndex index s.ebits) s = some old ∧
      exec (.set index value) s = .next t ∧
      exec (.get index) t = .next { t with responses := t.responses ++ [0#3 ++ d] } ∧
      d.toNat = value.toNat / 2 ^ shiftOf index s.ebits *
          2 ^ (shiftOf index s.ebits + s.ebits.toNat - 8) +
        old.toNat / 2 ^ (16 - shiftOf index s.ebits - s.ebits.toNat)

/-- 42_get.md R123: a GET inserted anywhere in a command sequence changes no other response and no state. -/
def Obligations.GetInsertionIsInvisible : Prop :=
  ∀ (ws ws' : List Word) (index : Index) (s : State), StateInv s →
    ∃ (t u : State) (rs rs' : List RspWord) (r : RspWord),
      runWords (ws ++ ws') s = .next t ∧ runWords (ws ++ encode (.get index) :: ws') s = .next u ∧
      rs.length = ws.length ∧ rs'.length = ws'.length ∧
      t.responses = s.responses ++ rs ++ rs' ∧ u.responses = s.responses ++ rs ++ r :: rs' ∧
      u = { t with responses := u.responses }

/-! ### The mapper -/

/-- 20_memory.md R48, R52: for every index that passes the bound check the product is below 2^19 and the byte exists;
for index `LEN` it is the last byte. -/
def Obligations.MappedByteExists : Prop :=
  ∀ (index : Index) (s : State), StateInv s → s.constructed = true → index ≤ s.len →
    bitOffset index s.ebits < 2 ^ 19 ∧ byteIndex index s.ebits < s.bufSize.toNat ∧
    (index = s.len → byteIndex index s.ebits = s.bufSize.toNat - 1)

/-- 20_memory.md R50: which indices cross, for every width 1 to 8; how far an element reaches past its byte. -/
def Obligations.CrossingIndexTable : Prop :=
  ∀ (index : Index) (e : Width), 1 ≤ e.toNat → e.toNat ≤ 8 →
    (crossing index e ↔
      (e = 3#4 ∧ (index.toNat % 8 = 2 ∨ index.toNat % 8 = 5)) ∨
      (e = 5#4 ∧ (index.toNat % 8 = 1 ∨ index.toNat % 8 = 3 ∨ index.toNat % 8 = 4 ∨ index.toNat % 8 = 6)) ∨
      (e = 6#4 ∧ (index.toNat % 4 = 1 ∨ index.toNat % 4 = 2)) ∨
      (e = 7#4 ∧ 1 ≤ index.toNat % 8 ∧ index.toNat % 8 ≤ 6)) ∧
    (crossing index e → 1 ≤ shiftOf index e + e.toNat - 8 ∧ shiftOf index e + e.toNat - 8 ≤ 7)

/-! ### Errors -/

/-- 60_exceptions.md R132, R133, R134, R137: from every state that meets the invariant, exactly when each error is
raised, and that it carries data 0 and changes nothing. -/
def Obligations.ErrorsRaisedExactlyWhen : Prop :=
  ∀ (s : State) (w : Word) (rest : List Input), StateInv s → s.inputs = .command w :: rest →
    ∃ (t : State) (r : RspWord), step s = .next t ∧ t.responses = s.responses ++ [r] ∧
      (rspStatus r = 4#3 ↔ ∃ x, decode w = .error x) ∧
      (rspStatus r = 2#3 ↔ ∃ e l, decode w = .ok (.construct e l) ∧ (e = 0#4 ∨ 8 < e.toNat)) ∧
      (rspStatus r = 3#3 ↔ s.constructed = false ∧
        ((∃ i v, decode w = .ok (.set i v)) ∨ ∃ i, decode w = .ok (.get i))) ∧
      (rspStatus r = 1#3 ↔ s.constructed = true ∧
        ((∃ i v, decode w = .ok (.set i v) ∧ s.len < i) ∨ ∃ i, decode w = .ok (.get i) ∧ s.len < i)) ∧
      (rspStatus r ≠ 0#3 → rspData r = 0#8 ∧ t = { s with inputs := rest, responses := s.responses ++ [r] })

/-- 60_exceptions.md R140: a command answered with a non-zero status leaves S as it was, and makes no buffer access:
with any other buffer contents the same happens. -/
def Obligations.ErrorsLeaveStateUntouched : Prop :=
  ∀ (s t : State) (w : Word) (rest : List Input) (r : RspWord), s.inputs = .command w :: rest →
    step s = .next t → t.responses = s.responses ++ [r] → rspStatus r ≠ 0#3 →
    t = { s with inputs := rest, responses := s.responses ++ [r] } ∧
    ∀ m : Memory, step { s with buf := m } = .next { t with buf := m }

/-- 60_exceptions.md R141: after an error the next commands execute as if the errored command had not been sent. -/
def Obligations.ErroredCommandIsInvisible : Prop :=
  ∀ (w : Word) (ws : List Word) (s u : State) (r : RspWord), StateInv s →
    runWords [w] s = .next u → u.responses = s.responses ++ [r] → rspStatus r ≠ 0#3 →
    ∃ (t v : State) (rs : List RspWord), runWords ws s = .next t ∧ runWords (w :: ws) s = .next v ∧
      t.responses = s.responses ++ rs ∧ v.responses = s.responses ++ r :: rs ∧
      v = { t with responses := v.responses }

/-- 30_encoding.md R70: one response to a command, its status one of 0 to 4, its data 0 unless it answers a GET with
`OK`. -/
def Obligations.ResponsesAreWellFormed : Prop :=
  ∀ (s t : State) (w : Word) (rest : List Input), s.inputs = .command w :: rest → step s = .next t →
    ∃ r : RspWord, t.responses = s.responses ++ [r] ∧ (rspStatus r).toNat ≤ 4 ∧
      (rspData r ≠ 0#8 → rspStatus r = 0#3 ∧ ∃ i, decode w = .ok (.get i))

/-- The model's own fault (log 7): SET and GET fault exactly when they pass both tests and the byte addressed lies at
`BUFSIZE` or above, which `MappedByteExists` rules out under the invariant; CONSTRUCT never faults. -/
def Obligations.FaultOnlyAtMissingByte : Prop :=
  (∀ (index : Index) (value : Byte) (s : State),
    exec (.set index value) s = .fault .noSuchByte ↔
      s.constructed = true ∧ index ≤ s.len ∧ s.bufSize.toNat ≤ byteIndex index s.ebits) ∧
  (∀ (index : Index) (s : State),
    exec (.get index) s = .fault .noSuchByte ↔
      s.constructed = true ∧ index ≤ s.len ∧ s.bufSize.toNat ≤ byteIndex index s.ebits) ∧
  (∀ (ebits : Width) (length : Index) (s : State), ∃ t, exec (.construct ebits length) s = .next t)

/-! ### Frames and whole-machine rules -/

/-- The frame of SET: no register, no host input and no earlier response changes, one response is added, and every byte
but the one addressed reads as before; where SET is refused, every byte does. -/
def Obligations.SetFrame : Prop :=
  ∀ (index : Index) (value : Byte) (s t : State), exec (.set index value) s = .next t →
    (∃ r, t.responses = s.responses ++ [r]) ∧ t = { s with buf := t.buf, responses := t.responses } ∧
    (∀ b, byteIndex index s.ebits = b → ∀ a, a ≠ b → readByte a t = readByte a s) ∧
    (¬ Admits s index → ∀ a, readByte a t = readByte a s)

/-- The frame of GET, which stores nothing: only one response is added; every byte reads as before. -/
def Obligations.GetFrame : Prop :=
  ∀ (index : Index) (s t : State), exec (.get index) s = .next t →
    (∃ r, t.responses = s.responses ++ [r]) ∧ t = { s with responses := t.responses } ∧
    ∀ a, readByte a t = readByte a s

/-- The frame of CONSTRUCT: the host's inputs and the earlier responses never change; a refused width changes no
register and no byte; a legal one writes the six registers and every byte of the buffer it makes, and no other byte
exists afterwards. -/
def Obligations.ConstructFrame : Prop :=
  ∀ (ebits : Width) (length : Index) (s t : State), exec (.construct ebits length) s = .next t →
    t.inputs = s.inputs ∧ (∃ r, t.responses = s.responses ++ [r]) ∧
    (¬ legalWidth ebits → t = { s with responses := t.responses } ∧ ∀ a, readByte a t = readByte a s) ∧
    (legalWidth ebits → ∀ a, readByte a t = if a ≤ length.toNat * ebits.toNat / 8 then some 0#8 else none)

/-- 10_state.md R32, R21: in a step that is neither a reset nor a CONSTRUCT of a legal width, no register changes; and
no command sets `CONSTRUCTED` back to 0. -/
def Obligations.RegistersWrittenOnlyByConstruct : Prop :=
  ∀ s t : State, step s = .next t → s.inputs.head? ≠ some .reset →
    (s.constructed = true → t.constructed = true) ∧
    ((∀ w e l, s.inputs.head? = some (.command w) → decode w = .ok (.construct e l) →
        e = 0#4 ∨ 8 < e.toNat) →
      t.constructed = s.constructed ∧ t.ebits = s.ebits ∧ t.len = s.len ∧
      t.setMask = s.setMask ∧ t.getMask = s.getMask ∧ t.bufSize = s.bufSize)

/-- 20_memory.md R41, R42, the side that says what changes a byte of the buffer: only a reset, a CONSTRUCT of a legal
width, or a SET whose `byteIndex` is its address. (What GET reads: `Obligations.GetFollowsAlgorithm`.) That an idle step
changes no byte is the model's choice (log 5). -/
def Obligations.BufferByteChangesOnlyByResetConstructOrItsSet : Prop :=
  ∀ (s t : State) (a : Nat), step s = .next t → s.inputs.head? ≠ some .reset →
    (∀ w e l, s.inputs.head? = some (.command w) → decode w = .ok (.construct e l) → e = 0#4 ∨ 8 < e.toNat) →
    (∀ w i v, s.inputs.head? = some (.command w) → decode w = .ok (.set i v) → byteIndex i s.ebits ≠ a) →
    readByte a t = readByte a s

/-- 70_reset_and_hazards.md R156: two machines that have no array and differ in any of the unspecified registers and in
the buffer give the same responses for ever, and are equal once an array exists. So no claim can rest on the values
log 1 names. -/
def Obligations.UnspecifiedRegistersNeverObserved : Prop :=
  ∀ (s s' : State) (k : Nat), s.constructed = false → s'.constructed = false →
    s'.inputs = s.inputs → s'.responses = s.responses →
    ∃ t t' : State, Host.Core.run Sys2Proof.core k s = .next t ∧ Host.Core.run Sys2Proof.core k s' = .next t' ∧
      t'.responses = t.responses ∧ t'.inputs = t.inputs ∧ t'.constructed = t.constructed ∧
      (t.constructed = true → t' = t)
end

