-- ==== Sys2Proof/Laws/Decode.lean ====
section
/-!
SUPPORT. The command word as a number: its fields, the fixed bits of each row, and the word of each command, so that
claims about encodings become linear arithmetic.
-/

namespace Sys2Proof

/-! ### The fields of a word -/

theorem opField_toNat (w : Word) : (opField w).toNat = w.toNat / 2 ^ 30 := by
  simp only [opField, BitVec.extractLsb'_toNat, Nat.shiftRight_eq_div_pow]
  omega

theorem ebitsField_toNat (w : Word) : (ebitsField w).toNat = w.toNat / 2 ^ 24 % 16 := by
  simp only [ebitsField, BitVec.extractLsb'_toNat, Nat.shiftRight_eq_div_pow]

theorem idxField_toNat (w : Word) : (idxField w).toNat = w.toNat / 2 ^ 8 % 65536 := by
  simp only [idxField, BitVec.extractLsb'_toNat, Nat.shiftRight_eq_div_pow]

theorem valField_toNat (w : Word) : (valField w).toNat = w.toNat % 256 := by
  simp only [valField, BitVec.extractLsb'_toNat, Nat.shiftRight_eq_div_pow]
  omega

/-! ### The fixed bits of a row -/

/-- A masked comparison, byte by byte where the fields end. -/
theorem and_eq_iff (w m p : Word) : w &&& m = p ↔
    w.extractLsb' 24 8 &&& m.extractLsb' 24 8 = p.extractLsb' 24 8 ∧
    w.extractLsb' 8 16 &&& m.extractLsb' 8 16 = p.extractLsb' 8 16 ∧
    w.extractLsb' 0 8 &&& m.extractLsb' 0 8 = p.extractLsb' 0 8 := by
  constructor
  · rintro rfl
    refine ⟨?_, ?_, ?_⟩ <;> (apply BitVec.eq_of_getLsbD_eq; intro k hk; simp [hk])
  · rintro ⟨h1, h2, h3⟩
    apply BitVec.eq_of_getLsbD_eq
    intro k hk
    by_cases hk8 : k < 8
    · have := congrArg (fun x => x.getLsbD k) h3
      simpa [hk8, hk] using this
    by_cases hk24 : k < 24
    · have := congrArg (fun x => x.getLsbD (k - 8)) h2
      simp only [BitVec.getLsbD_and, BitVec.getLsbD_extractLsb', show k - 8 < 16 by omega,
        show 8 + (k - 8) = k by omega, decide_true, Bool.true_and] at this
      rwa [BitVec.getLsbD_and]
    · have := congrArg (fun x => x.getLsbD (k - 24)) h1
      simp only [BitVec.getLsbD_and, BitVec.getLsbD_extractLsb', show k - 24 < 8 by omega,
        show 24 + (k - 24) = k by omega, decide_true, Bool.true_and] at this
      rwa [BitVec.getLsbD_and]

theorem high_byte_toNat (w : Word) : (w.extractLsb' 24 8).toNat = w.toNat / 2 ^ 24 := by
  simp only [BitVec.extractLsb'_toNat, Nat.shiftRight_eq_div_pow]
  omega

theorem byte_and_full (b p : Byte) : b &&& 0xFF#8 = p ↔ b = p := by
  rw [show (0xFF#8) = BitVec.allOnes 8 by decide, BitVec.and_allOnes]

theorem byte_and_high (b : Byte) : b &&& 0xF0#8 = 0#8 ↔ b.toNat < 16 := by
  revert b; decide

theorem constructRow_fits_iff (w : Word) :
    constructRow.fits w = true ↔ w.toNat / 2 ^ 28 = 0 ∧ w.toNat % 256 = 0 := by
  have h1 := byte_and_high (w.extractLsb' 24 8)
  have h3 : w.extractLsb' 0 8 &&& 0xFF#8 = 0#8 ↔ w.toNat % 256 = 0 := by
    rw [byte_and_full, ← BitVec.toNat_inj, show (w.extractLsb' 0 8).toNat = w.toNat % 256 from valField_toNat w]
    rfl
  have e1 := high_byte_toNat w
  rw [EncodingRow.fits, beq_iff_eq, and_eq_iff]
  change (w.extractLsb' 24 8 &&& 0xF0#8 = 0#8 ∧ w.extractLsb' 8 16 &&& 0#16 = 0#16 ∧
    w.extractLsb' 0 8 &&& 0xFF#8 = 0#8) ↔ _
  rw [h1, h3, BitVec.and_zero, e1]
  simp only [true_and]
  omega

theorem setRow_fits_iff (w : Word) : setRow.fits w = true ↔ w.toNat / 2 ^ 24 = 64 := by
  have h1 := byte_and_full (w.extractLsb' 24 8) 0x40#8
  have e1 := high_byte_toNat w
  rw [EncodingRow.fits, beq_iff_eq, and_eq_iff]
  change (w.extractLsb' 24 8 &&& 0xFF#8 = 0x40#8 ∧ w.extractLsb' 8 16 &&& 0#16 = 0#16 ∧
    w.extractLsb' 0 8 &&& 0#8 = 0#8) ↔ _
  rw [h1, BitVec.and_zero, BitVec.and_zero, ← BitVec.toNat_inj, e1]
  simp

theorem getRow_fits_iff (w : Word) :
    getRow.fits w = true ↔ w.toNat / 2 ^ 24 = 128 ∧ w.toNat % 256 = 0 := by
  have h1 := byte_and_full (w.extractLsb' 24 8) 0x80#8
  have h3 : w.extractLsb' 0 8 &&& 0xFF#8 = 0#8 ↔ w.toNat % 256 = 0 := by
    rw [byte_and_full, ← BitVec.toNat_inj, show (w.extractLsb' 0 8).toNat = w.toNat % 256 from valField_toNat w]
    rfl
  have e1 := high_byte_toNat w
  rw [EncodingRow.fits, beq_iff_eq, and_eq_iff]
  change (w.extractLsb' 24 8 &&& 0xFF#8 = 0x80#8 ∧ w.extractLsb' 8 16 &&& 0#16 = 0#16 ∧
    w.extractLsb' 0 8 &&& 0xFF#8 = 0#8) ↔ _
  rw [h1, h3, BitVec.and_zero, ← BitVec.toNat_inj, e1]
  simp

/-! ### The word of a command -/

theorem encode_construct_toNat (ebits : Width) (length : Index) :
    (encode (.construct ebits length)).toNat = ebits.toNat * 2 ^ 24 + length.toNat * 2 ^ 8 := by
  change (0#2 ++ 0#2 ++ ebits ++ length ++ 0#8).toNat = _
  rw [BitVec.toNat_append, BitVec.toNat_append, BitVec.toNat_append,
    ← Nat.shiftLeft_add_eq_or_of_lt (0#8).isLt, ← Nat.shiftLeft_add_eq_or_of_lt length.isLt,
    ← Nat.shiftLeft_add_eq_or_of_lt ebits.isLt]
  have : (0#2 ++ 0#2).toNat = 0 := by decide
  have : (0#8).toNat = 0 := by decide
  simp only [Nat.shiftLeft_eq] at *
  omega

theorem encode_set_toNat (index : Index) (value : Byte) :
    (encode (.set index value)).toNat = 64 * 2 ^ 24 + index.toNat * 2 ^ 8 + value.toNat := by
  change (1#2 ++ 0#6 ++ index ++ value).toNat = _
  rw [BitVec.toNat_append, BitVec.toNat_append,
    ← Nat.shiftLeft_add_eq_or_of_lt value.isLt, ← Nat.shiftLeft_add_eq_or_of_lt index.isLt]
  have : (1#2 ++ 0#6).toNat = 64 := by decide
  simp only [Nat.shiftLeft_eq] at *
  omega

theorem encode_get_toNat (index : Index) :
    (encode (.get index)).toNat = 128 * 2 ^ 24 + index.toNat * 2 ^ 8 := by
  change (2#2 ++ 0#6 ++ index ++ 0#8).toNat = _
  rw [BitVec.toNat_append, BitVec.toNat_append,
    ← Nat.shiftLeft_add_eq_or_of_lt (0#8).isLt, ← Nat.shiftLeft_add_eq_or_of_lt index.isLt]
  have : (2#2 ++ 0#6).toNat = 128 := by decide
  have : (0#8).toNat = 0 := by decide
  simp only [Nat.shiftLeft_eq] at *
  omega

end Sys2Proof
end

