-- ==== Sys2Proof/Laws/Memory.lean ====
section
/-!
SUPPORT. The buffer as a list of cells: reading after writing, that every memory operation keeps the canonical form,
and that canonical lists with equal contents are equal.
-/

namespace Sys2Proof.Machine

@[simp] theorem Memory.get_nil (a : Nat) : Memory.get [] a = Memory.unlisted := rfl

theorem Memory.get_cons (k : Nat) (v : Byte) (m : Memory) (a : Nat) :
    Memory.get ((k, v) :: m) a = if k = a then v else Memory.get m a := rfl

theorem Memory.wfFrom_cons (lo k : Nat) (v : Byte) (m : Memory) :
    Memory.wfFrom lo ((k, v) :: m) = true ↔
      lo ≤ k ∧ v ≠ Memory.unlisted ∧ Memory.wfFrom (k + 1) m = true := by
  simp [Memory.wfFrom, and_assoc]

theorem Memory.below_cons (n k : Nat) (v : Byte) (m : Memory) :
    Memory.below n ((k, v) :: m) = true ↔ k < n ∧ Memory.below n m = true := by
  simp [Memory.below]

theorem Memory.wfFrom_mono {lo lo' : Nat} (h : lo' ≤ lo) :
    ∀ m : Memory, Memory.wfFrom lo m = true → Memory.wfFrom lo' m = true
  | [], _ => rfl
  | (k, v) :: m, hm => by
    rw [Memory.wfFrom_cons] at hm ⊢
    exact ⟨h.trans hm.1, hm.2⟩

/-- A canonical list lists nothing below its lower bound. -/
theorem Memory.get_lt_of_wfFrom {a : Nat} :
    ∀ {lo : Nat} {m : Memory}, Memory.wfFrom lo m = true → a < lo → Memory.get m a = Memory.unlisted
  | _, [], _, _ => rfl
  | lo, (k, v) :: m, hm, ha => by
    rw [Memory.wfFrom_cons] at hm
    rw [Memory.get_cons, if_neg (by omega)]
    exact Memory.get_lt_of_wfFrom hm.2.2 (by omega)

/-- A list that lists nothing at `n` or above reads as unlisted there. -/
theorem Memory.get_of_below {n a : Nat} (ha : n ≤ a) :
    ∀ {m : Memory}, Memory.below n m = true → Memory.get m a = Memory.unlisted
  | [], _ => rfl
  | (k, v) :: m, hm => by
    rw [Memory.below_cons] at hm
    rw [Memory.get_cons, if_neg (by omega)]
    exact Memory.get_of_below ha hm.2

theorem Memory.get_cell (k : Nat) (v : Byte) (m : Memory) (a : Nat)
    (h : Memory.get m k = Memory.unlisted) :
    Memory.get (Memory.cell k v m) a = if k = a then v else Memory.get m a := by
  unfold Memory.cell
  split
  · split
    · subst_vars; exact h
    · rfl
  · rfl

theorem Memory.wfFrom_cell {lo k : Nat} {v : Byte} {m : Memory} (hk : lo ≤ k)
    (hm : Memory.wfFrom (k + 1) m = true) : Memory.wfFrom lo (Memory.cell k v m) = true := by
  unfold Memory.cell
  split
  · exact Memory.wfFrom_mono (by omega) m hm
  · exact (Memory.wfFrom_cons ..).2 ⟨hk, ‹_›, hm⟩

theorem Memory.below_cell {n k : Nat} {v : Byte} {m : Memory} (hk : k < n)
    (hm : Memory.below n m = true) : Memory.below n (Memory.cell k v m) = true := by
  unfold Memory.cell
  split
  · exact hm
  · exact (Memory.below_cons ..).2 ⟨hk, hm⟩

/-- Read after write. -/
theorem Memory.get_set (a : Nat) (v : Byte) (b : Nat) :
    ∀ {lo : Nat} {m : Memory}, Memory.wfFrom lo m = true →
      Memory.get (Memory.set m a v) b = if a = b then v else Memory.get m b
  | _, [], _ => Memory.get_cell a v [] b rfl
  | lo, (k, u) :: m, hm => by
    have hc := (Memory.wfFrom_cons ..).1 hm
    unfold Memory.set
    split
    · rw [Memory.get_cons, Memory.get_set a v b hc.2.2, Memory.get_cons]
      split <;> split <;> first | rfl | omega
    · split
      · subst_vars
        rw [Memory.get_cell k v m b (Memory.get_lt_of_wfFrom hc.2.2 (by omega)), Memory.get_cons]
        split <;> rfl
      · exact Memory.get_cell a v _ b
          (by rw [Memory.get_cons, if_neg ‹_›]; exact Memory.get_lt_of_wfFrom hc.2.2 (by omega))

/-- A write leaves every other address alone, in any list. -/
theorem Memory.get_set_ne {a b : Nat} (h : a ≠ b) (v : Byte) :
    ∀ m : Memory, Memory.get (Memory.set m a v) b = Memory.get m b := by
  have cell (m : Memory) : Memory.get (Memory.cell a v m) b = Memory.get m b := by
    unfold Memory.cell
    split
    · rfl
    · rw [Memory.get_cons, if_neg h]
  intro m
  induction m with
  | nil => exact cell []
  | cons c m ih =>
    obtain ⟨k, u⟩ := c
    unfold Memory.set
    split
    · rw [Memory.get_cons, Memory.get_cons, ih]
    · split
      · subst_vars; rw [cell, Memory.get_cons, if_neg h]
      · exact cell _

theorem Memory.wfFrom_set {a : Nat} {v : Byte} :
    ∀ {lo : Nat} {m : Memory}, lo ≤ a → Memory.wfFrom lo m = true →
      Memory.wfFrom lo (Memory.set m a v) = true
  | lo, [], ha, _ => Memory.wfFrom_cell ha rfl
  | lo, (k, u) :: m, ha, hm => by
    have hc := (Memory.wfFrom_cons ..).1 hm
    unfold Memory.set
    split
    · exact (Memory.wfFrom_cons ..).2 ⟨hc.1, hc.2.1, Memory.wfFrom_set (by omega) hc.2.2⟩
    · split
      · subst_vars; exact Memory.wfFrom_cell ha hc.2.2
      · exact Memory.wfFrom_cell ha ((Memory.wfFrom_cons ..).2 ⟨by omega, hc.2⟩)

/-- A write keeps the canonical form. -/
theorem Memory.wf_set {m : Memory} (a : Nat) (v : Byte) (h : Memory.wf m = true) :
    Memory.wf (Memory.set m a v) = true :=
  Memory.wfFrom_set (Nat.zero_le a) h

/-- A write below `n` lists nothing at `n` or above. -/
theorem Memory.below_set {n a : Nat} {v : Byte} (ha : a < n) :
    ∀ {m : Memory}, Memory.below n m = true → Memory.below n (Memory.set m a v) = true
  | [], _ => Memory.below_cell ha rfl
  | (k, u) :: m, hm => by
    have hc := (Memory.below_cons ..).1 hm
    unfold Memory.set
    split
    · exact (Memory.below_cons ..).2 ⟨hc.1, Memory.below_set ha hc.2⟩
    · split
      · exact Memory.below_cell ha hc.2
      · exact Memory.below_cell ha hm

/-- Canonical lists with equal contents are equal data. -/
theorem Memory.wfFrom_ext :
    ∀ {lo : Nat} {m m' : Memory}, Memory.wfFrom lo m = true → Memory.wfFrom lo m' = true →
      (∀ a, Memory.get m a = Memory.get m' a) → m = m'
  | _, [], [], _, _, _ => rfl
  | _, [], (k, v) :: m', _, hm', h => by
    have hc := (Memory.wfFrom_cons ..).1 hm'
    have := h k
    rw [Memory.get_cons, if_pos rfl] at this
    exact absurd this.symm hc.2.1
  | _, (k, v) :: m, [], hm, _, h => by
    have hc := (Memory.wfFrom_cons ..).1 hm
    have := h k
    rw [Memory.get_cons, if_pos rfl] at this
    exact absurd this hc.2.1
  | lo, (k, v) :: m, (k', v') :: m', hm, hm', h => by
    have hc := (Memory.wfFrom_cons ..).1 hm
    have hc' := (Memory.wfFrom_cons ..).1 hm'
    have hk : k = k' := by
      rcases Nat.lt_trichotomy k k' with hlt | heq | hgt
      · have := h k
        rw [Memory.get_cons, if_pos rfl, Memory.get_cons, if_neg (by omega),
          Memory.get_lt_of_wfFrom hc'.2.2 (by omega)] at this
        exact absurd this hc.2.1
      · exact heq
      · have := h k'
        rw [Memory.get_cons, if_neg (by omega), Memory.get_cons, if_pos rfl,
          Memory.get_lt_of_wfFrom hc.2.2 (by omega)] at this
        exact absurd this.symm hc'.2.1
    subst hk
    have hv : v = v' := by simpa [Memory.get_cons] using h k
    subst hv
    have : m = m' := Memory.wfFrom_ext hc.2.2 hc'.2.2 fun a => by
      by_cases ha : k = a
      · subst ha
        rw [Memory.get_lt_of_wfFrom hc.2.2 (by omega), Memory.get_lt_of_wfFrom hc'.2.2 (by omega)]
      · simpa [Memory.get_cons, ha] using h a
    rw [this]

theorem Memory.wf_ext {m m' : Memory} (hm : Memory.wf m = true) (hm' : Memory.wf m' = true)
    (h : ∀ a, Memory.get m a = Memory.get m' a) : m = m' :=
  Memory.wfFrom_ext hm hm' h

end Sys2Proof.Machine
end

