-- ==== Sys2Proof/Laws/State.lean ====
section
/-!
SUPPORT. One lemma per field per update of State, true by rfl, so that no proof unfolds a record update.
-/

namespace Sys2Proof.Machine

@[simp] theorem respond_constructed (st : Status) (d : Byte) (s : State) : (respond st d s).constructed = s.constructed := rfl
@[simp] theorem respond_ebits (st : Status) (d : Byte) (s : State) : (respond st d s).ebits = s.ebits := rfl
@[simp] theorem respond_len (st : Status) (d : Byte) (s : State) : (respond st d s).len = s.len := rfl
@[simp] theorem respond_setMask (st : Status) (d : Byte) (s : State) : (respond st d s).setMask = s.setMask := rfl
@[simp] theorem respond_getMask (st : Status) (d : Byte) (s : State) : (respond st d s).getMask = s.getMask := rfl
@[simp] theorem respond_bufSize (st : Status) (d : Byte) (s : State) : (respond st d s).bufSize = s.bufSize := rfl
@[simp] theorem respond_buf (st : Status) (d : Byte) (s : State) : (respond st d s).buf = s.buf := rfl
@[simp] theorem respond_inputs (st : Status) (d : Byte) (s : State) : (respond st d s).inputs = s.inputs := rfl
@[simp] theorem respond_responses (st : Status) (d : Byte) (s : State) : (respond st d s).responses = s.responses ++ [responseWord st d] := rfl

@[simp] theorem raise_constructed (e : Error) (s : State) : (raise e s).constructed = s.constructed := rfl
@[simp] theorem raise_ebits (e : Error) (s : State) : (raise e s).ebits = s.ebits := rfl
@[simp] theorem raise_len (e : Error) (s : State) : (raise e s).len = s.len := rfl
@[simp] theorem raise_setMask (e : Error) (s : State) : (raise e s).setMask = s.setMask := rfl
@[simp] theorem raise_getMask (e : Error) (s : State) : (raise e s).getMask = s.getMask := rfl
@[simp] theorem raise_bufSize (e : Error) (s : State) : (raise e s).bufSize = s.bufSize := rfl
@[simp] theorem raise_buf (e : Error) (s : State) : (raise e s).buf = s.buf := rfl
@[simp] theorem raise_inputs (e : Error) (s : State) : (raise e s).inputs = s.inputs := rfl
@[simp] theorem raise_responses (e : Error) (s : State) : (raise e s).responses = s.responses ++ [responseWord (errorStatus e) 0#8] := rfl

@[simp] theorem newArray_constructed (w : Width) (l : Index) (s : State) : (newArray w l s).constructed = true := rfl
@[simp] theorem newArray_ebits (w : Width) (l : Index) (s : State) : (newArray w l s).ebits = w := rfl
@[simp] theorem newArray_len (w : Width) (l : Index) (s : State) : (newArray w l s).len = l := rfl
@[simp] theorem newArray_setMask (w : Width) (l : Index) (s : State) : (newArray w l s).setMask = setMaskOf w := rfl
@[simp] theorem newArray_getMask (w : Width) (l : Index) (s : State) : (newArray w l s).getMask = getMaskOf w := rfl
@[simp] theorem newArray_bufSize (w : Width) (l : Index) (s : State) : (newArray w l s).bufSize = bufSizeOf w l := rfl
@[simp] theorem newArray_buf (w : Width) (l : Index) (s : State) : (newArray w l s).buf = [] := rfl
@[simp] theorem newArray_inputs (w : Width) (l : Index) (s : State) : (newArray w l s).inputs = s.inputs := rfl
@[simp] theorem newArray_responses (w : Width) (l : Index) (s : State) : (newArray w l s).responses = s.responses := rfl

@[simp] theorem accept_constructed (rest : List Input) (s : State) : (accept rest s).constructed = s.constructed := rfl
@[simp] theorem accept_ebits (rest : List Input) (s : State) : (accept rest s).ebits = s.ebits := rfl
@[simp] theorem accept_len (rest : List Input) (s : State) : (accept rest s).len = s.len := rfl
@[simp] theorem accept_setMask (rest : List Input) (s : State) : (accept rest s).setMask = s.setMask := rfl
@[simp] theorem accept_getMask (rest : List Input) (s : State) : (accept rest s).getMask = s.getMask := rfl
@[simp] theorem accept_bufSize (rest : List Input) (s : State) : (accept rest s).bufSize = s.bufSize := rfl
@[simp] theorem accept_buf (rest : List Input) (s : State) : (accept rest s).buf = s.buf := rfl
@[simp] theorem accept_inputs (rest : List Input) (s : State) : (accept rest s).inputs = rest := rfl
@[simp] theorem accept_responses (rest : List Input) (s : State) : (accept rest s).responses = s.responses := rfl

@[simp] theorem present_constructed (w : Word) (s : State) : (present w s).constructed = s.constructed := rfl
@[simp] theorem present_ebits (w : Word) (s : State) : (present w s).ebits = s.ebits := rfl
@[simp] theorem present_len (w : Word) (s : State) : (present w s).len = s.len := rfl
@[simp] theorem present_setMask (w : Word) (s : State) : (present w s).setMask = s.setMask := rfl
@[simp] theorem present_getMask (w : Word) (s : State) : (present w s).getMask = s.getMask := rfl
@[simp] theorem present_bufSize (w : Word) (s : State) : (present w s).bufSize = s.bufSize := rfl
@[simp] theorem present_buf (w : Word) (s : State) : (present w s).buf = s.buf := rfl
@[simp] theorem present_inputs (w : Word) (s : State) : (present w s).inputs = .command w :: s.inputs := rfl
@[simp] theorem present_responses (w : Word) (s : State) : (present w s).responses = s.responses := rfl

@[simp] theorem presenting_constructed (ws : List Word) (s : State) : (presenting ws s).constructed = s.constructed := rfl
@[simp] theorem presenting_ebits (ws : List Word) (s : State) : (presenting ws s).ebits = s.ebits := rfl
@[simp] theorem presenting_len (ws : List Word) (s : State) : (presenting ws s).len = s.len := rfl
@[simp] theorem presenting_setMask (ws : List Word) (s : State) : (presenting ws s).setMask = s.setMask := rfl
@[simp] theorem presenting_getMask (ws : List Word) (s : State) : (presenting ws s).getMask = s.getMask := rfl
@[simp] theorem presenting_bufSize (ws : List Word) (s : State) : (presenting ws s).bufSize = s.bufSize := rfl
@[simp] theorem presenting_buf (ws : List Word) (s : State) : (presenting ws s).buf = s.buf := rfl
@[simp] theorem presenting_inputs (ws : List Word) (s : State) : (presenting ws s).inputs = ws.map Input.command := rfl
@[simp] theorem presenting_responses (ws : List Word) (s : State) : (presenting ws s).responses = s.responses := rfl

@[simp] theorem resetBlock_constructed (s : State) : (resetBlock s).constructed = false := rfl
@[simp] theorem resetBlock_ebits (s : State) : (resetBlock s).ebits = Config.resetEbits := rfl
@[simp] theorem resetBlock_len (s : State) : (resetBlock s).len = Config.resetLen := rfl
@[simp] theorem resetBlock_setMask (s : State) : (resetBlock s).setMask = Config.resetSetMask := rfl
@[simp] theorem resetBlock_getMask (s : State) : (resetBlock s).getMask = Config.resetGetMask := rfl
@[simp] theorem resetBlock_bufSize (s : State) : (resetBlock s).bufSize = Config.resetBufSize := rfl
@[simp] theorem resetBlock_buf (s : State) : (resetBlock s).buf = [] := rfl
@[simp] theorem resetBlock_inputs (s : State) : (resetBlock s).inputs = s.inputs := rfl
@[simp] theorem resetBlock_responses (s : State) : (resetBlock s).responses = s.responses := rfl

end Sys2Proof.Machine
end

