-- ==== Sys2Proof/Laws/Ops.lean ====
section
/-!
SUPPORT. What each shared operation can do, said once: the buffer accesses, the two tests before SET and GET, and the
arithmetic of the mapper.
-/

namespace Sys2Proof.Machine

/-! ### Buffer accesses -/

theorem readByte_eq_some_iff (a : Nat) (s : State) (v : Byte) :
    readByte a s = some v ↔ a < s.bufSize.toNat ∧ v = Memory.get s.buf a := by
  unfold readByte
  split <;> simp_all [eq_comm]

theorem readByte_eq_none_iff (a : Nat) (s : State) : readByte a s = none ↔ s.bufSize.toNat ≤ a := by
  unfold readByte
  split <;> simp_all

/-- A byte is read from the buffer and its size alone. -/
theorem readByte_congr {s t : State} (hn : t.bufSize = s.bufSize) (hb : t.buf = s.buf) (a : Nat) :
    readByte a t = readByte a s := by
  unfold readByte
  rw [hn, hb]

theorem writeByte_eq_some_iff (a : Nat) (v : Byte) (s t : State) :
    writeByte a v s = some t ↔
      a < s.bufSize.toNat ∧ t = { s with buf := Memory.set s.buf a v } := by
  unfold writeByte
  split <;> simp_all [eq_comm]

/-- Every byte after a write that took place, for a canonical buffer. -/
theorem readByte_writeByte {s t : State} {a : Nat} {v : Byte} (hw : Memory.wf s.buf = true)
    (h : writeByte a v s = some t) (b : Nat) :
    readByte b t = if a = b then some v else readByte b s := by
  obtain ⟨ha, rfl⟩ := (writeByte_eq_some_iff a v s t).1 h
  unfold readByte
  simp only [Memory.get_set a v b hw]
  by_cases hab : a = b
  · subst hab; simp [ha]
  · simp [hab]

/-- Every byte of a new array is 0. -/
theorem readByte_newArray (w : Width) (l : Index) (s : State) (a : Nat) :
    readByte a (newArray w l s) = if a < (bufSizeOf w l).toNat then some 0#8 else none := rfl

/-! ### The two tests before SET and GET -/

theorem accessError_eq_none_iff (i : Index) (s : State) : accessError i s = none ↔ Admits s i := by
  unfold accessError Admits
  by_cases hc : s.constructed = false
  · simp [hc]
  · by_cases hi : s.len < i
    · simp [hc, hi]
    · simp only [Bool.not_eq_false] at hc
      simp [hc, hi, BitVec.not_lt.1 hi]

theorem accessError_of_not_constructed {s : State} (h : s.constructed = false) (i : Index) :
    accessError i s = some .notConstructed := by
  simp [accessError, h]

theorem accessError_of_beyond {s : State} (hc : s.constructed = true) {i : Index} (h : s.len < i) :
    accessError i s = some .indexOutOfRange := by
  simp [accessError, hc, h]

/-! ### The mapper -/

theorem shiftOf_lt (i : Index) (e : Width) : shiftOf i e < 8 := Nat.mod_lt _ (by decide)

theorem bitOffset_eq (i : Index) (e : Width) : bitOffset i e = 8 * byteIndex i e + shiftOf i e :=
  (Nat.div_add_mod _ 8).symm

theorem byteIndex_mono {i l : Index} (h : i ≤ l) (e : Width) : byteIndex i e ≤ byteIndex l e :=
  Nat.div_le_div_right (Nat.mul_le_mul_right _ (BitVec.le_def.1 h))

theorem legalWidth_iff (e : Width) : legalWidth e ↔ 1 ≤ e.toNat ∧ e.toNat ≤ 8 := by
  revert e; decide

theorem bufSizeOf_toNat {e : Width} (h : e.toNat ≤ 8) (l : Index) :
    (bufSizeOf e l).toNat = l.toNat * e.toNat / 8 + 1 := by
  have hl : l.toNat ≤ 65535 := by have := l.isLt; omega
  have : l.toNat * e.toNat ≤ 65535 * 8 := Nat.mul_le_mul hl h
  unfold bufSizeOf
  rw [BitVec.toNat_ofNat, Nat.mod_eq_of_lt (by omega)]

theorem setMaskOf_toNat {e : Width} (h : legalWidth e) :
    (setMaskOf e).toNat = 256 - 2 ^ (8 - e.toNat) := by
  revert e; decide

theorem getMaskOf_toNat {e : Width} (h : legalWidth e) : (getMaskOf e).toNat = 2 ^ e.toNat - 1 := by
  revert e; decide

end Sys2Proof.Machine
end

