-- ==== Sys2Proof/Laws/Exec.lean ====
section
/-!
SUPPORT. The meanings by cases, and once for all what a command or a step can do. Later proofs cite these lemmas and
do not unfold a meaning.
-/

namespace Sys2Proof.Machine

/-! ### One lemma per case of a meaning -/

theorem exec_construct_legal {w : Width} (h : legalWidth w) (l : Index) (s : State) :
    exec (.construct w l) s = .next (respond .ok 0#8 (newArray w l s)) :=
  if_pos h

theorem exec_construct_illegal {w : Width} (h : ¬ legalWidth w) (l : Index) (s : State) :
    exec (.construct w l) s = .next (raise .invalidConfiguration s) :=
  if_neg h

theorem exec_set_error {i : Index} {s : State} {e : Error} (h : accessError i s = some e) (v : Byte) :
    exec (.set i v) s = .next (raise e s) := by
  simp [exec, execSet, h]

theorem exec_set_ok {i : Index} {v old : Byte} {s t : State} (ha : accessError i s = none)
    (hr : readByte (byteIndex i s.ebits) s = some old)
    (hw : writeByte (byteIndex i s.ebits) (insertBits old v s.setMask (shiftOf i s.ebits)) s = some t) :
    exec (.set i v) s = .next (respond .ok 0#8 t) := by
  simp [exec, execSet, ha, hr, hw]

theorem exec_get_error {i : Index} {s : State} {e : Error} (h : accessError i s = some e) :
    exec (.get i) s = .next (raise e s) := by
  simp [exec, execGet, h]

theorem exec_get_ok {i : Index} {raw : Byte} {s : State} (ha : accessError i s = none)
    (hr : readByte (byteIndex i s.ebits) s = some raw) :
    exec (.get i) s = .next (respond .ok (extractBits raw s.getMask (rotateAmount i s.ebits)) s) := by
  simp [exec, execGet, ha, hr]

/-! ### What a command that answers a next state can do -/

theorem exec_construct_next {w : Width} {l : Index} {s t : State}
    (h : exec (.construct w l) s = .next t) :
    (¬ legalWidth w ∧ t = raise .invalidConfiguration s) ∨
    (legalWidth w ∧ t = respond .ok 0#8 (newArray w l s)) := by
  by_cases hw : legalWidth w
  · rw [exec_construct_legal hw] at h
    exact .inr ⟨hw, (Host.Outcome.next.inj h).symm⟩
  · rw [exec_construct_illegal hw] at h
    exact .inl ⟨hw, (Host.Outcome.next.inj h).symm⟩

theorem exec_set_next {x : Index} {v : Byte} {s t : State} (h : exec (.set x v) s = .next t) :
    (∃ e, accessError x s = some e ∧ t = raise e s) ∨
    (accessError x s = none ∧ byteIndex x s.ebits < s.bufSize.toNat ∧
      t = respond .ok 0#8 { s with
        buf := Memory.set s.buf (byteIndex x s.ebits)
          (insertBits (Memory.get s.buf (byteIndex x s.ebits)) v s.setMask (shiftOf x s.ebits)) }) := by
  cases ha : accessError x s with
  | some e =>
    rw [exec_set_error ha] at h
    exact .inl ⟨e, rfl, (Host.Outcome.next.inj h).symm⟩
  | none =>
    by_cases hb : byteIndex x s.ebits < s.bufSize.toNat
    · rw [exec_set_ok ha ((readByte_eq_some_iff _ _ _).2 ⟨hb, rfl⟩)
        ((writeByte_eq_some_iff _ _ _ _).2 ⟨hb, rfl⟩)] at h
      exact .inr ⟨rfl, hb, (Host.Outcome.next.inj h).symm⟩
    · simp [exec, execSet, ha, readByte, hb] at h

theorem exec_get_next {x : Index} {s t : State} (h : exec (.get x) s = .next t) :
    (∃ e, accessError x s = some e ∧ t = raise e s) ∨
    (accessError x s = none ∧ byteIndex x s.ebits < s.bufSize.toNat ∧
      t = respond .ok
        (extractBits (Memory.get s.buf (byteIndex x s.ebits)) s.getMask (rotateAmount x s.ebits)) s) := by
  cases ha : accessError x s with
  | some e =>
    rw [exec_get_error ha] at h
    exact .inl ⟨e, rfl, (Host.Outcome.next.inj h).symm⟩
  | none =>
    by_cases hb : byteIndex x s.ebits < s.bufSize.toNat
    · rw [exec_get_ok ha ((readByte_eq_some_iff _ _ _).2 ⟨hb, rfl⟩)] at h
      exact .inr ⟨rfl, hb, (Host.Outcome.next.inj h).symm⟩
    · simp [exec, execGet, ha, readByte, hb] at h

/-! ### A step, by the host's next input -/

theorem step_idle {s : State} (h : s.inputs = []) : step s = .next s := by
  simp [step, h]

theorem step_reset {s : State} {rest : List Input} (h : s.inputs = .reset :: rest) :
    step s = .next (resetBlock (accept rest s)) := by
  simp [step, h]

theorem step_command {s : State} {w : Word} {rest : List Input} (h : s.inputs = .command w :: rest) :
    step s = stepCommand w (accept rest s) := by
  simp [step, h]

theorem stepCommand_decoded {w : Word} {i : Instr} (h : decode w = .ok i) (s : State) :
    stepCommand w s = exec i s := by
  simp [stepCommand, h]

theorem stepCommand_illegal {w : Word} {r : DecodeError} (h : decode w = .error r) (s : State) :
    stepCommand w s = .next (raise .illegalCommand s) := by
  simp [stepCommand, h]

/-! ### The invariant as a check that can be evaluated -/

/-- `StateInv` as a Bool, for concrete states. -/
def invCheck (s : State) : Bool :=
  Memory.wf s.buf &&
    (!s.constructed ||
      (decide (1 ≤ s.ebits.toNat) && decide (s.ebits.toNat ≤ 8) &&
        decide (s.setMask.toNat = 256 - 2 ^ (8 - s.ebits.toNat)) &&
        decide (s.getMask.toNat = 2 ^ s.ebits.toNat - 1) &&
        decide (s.bufSize.toNat = s.len.toNat * s.ebits.toNat / 8 + 1) &&
        Memory.below s.bufSize.toNat s.buf))

theorem inv_of_invCheck {s : State} (h : invCheck s = true) : StateInv s := by
  simp only [invCheck, Bool.and_eq_true, Bool.or_eq_true, Bool.not_eq_true', decide_eq_true_eq] at h
  refine ⟨h.1, fun hc => ?_⟩
  rcases h.2 with hn | ⟨⟨⟨⟨⟨h1, h2⟩, h3⟩, h4⟩, h5⟩, h6⟩
  · rw [hc] at hn; cases hn
  · exact ⟨h1, h2, h3, h4, h5, h6⟩

end Sys2Proof.Machine
end

