-- ==== Sys2Proof/Laws/PerInstr.lean ====
section
/-!
SUPPORT. A statement about every command as syntax, one lemma per constructor of Instr.
-/

namespace Sys2Proof.Laws.FixedBits

/-- The command's word has the fixed bits of its row of the opcode table (30_encoding.md R67 to R69). -/
def Statement (i : Instr) : Prop := i.row.fits (encode i) = true

theorem construct (ebits : Width) (length : Index) : Statement (.construct ebits length) := by
  have he := ebits.isLt
  have hl := length.isLt
  refine (constructRow_fits_iff _).2 ?_
  rw [encode_construct_toNat]
  omega

theorem set (index : Index) (value : Byte) : Statement (.set index value) := by
  have hi := index.isLt
  have hv := value.isLt
  refine (setRow_fits_iff _).2 ?_
  rw [encode_set_toNat]
  omega

theorem get (index : Index) : Statement (.get index) := by
  have hi := index.isLt
  refine (getRow_fits_iff _).2 ?_
  rw [encode_get_toNat]
  omega

end Sys2Proof.Laws.FixedBits
end

