-- ==== Sys2Proof/Laws/Run.lean ====
section
/-!
SUPPORT. Running the machine: the two equations of a run, and a run of command words one word at a time, so that no
proof unfolds Host.Core.run.
-/

namespace Sys2Proof.Machine

theorem host_run_next {M : Host.Core} {k : Nat} {s t : M.State} (h : M.step s = .next t) :
    M.run (k + 1) s = M.run k t := by
  rw [Host.Core.run, h]

theorem run_zero (s : State) : Host.Core.run Sys2Proof.core 0 s = .next s := rfl

theorem run_next {k : Nat} {s t : State} (h : step s = .next t) :
    Host.Core.run Sys2Proof.core (k + 1) s = Host.Core.run Sys2Proof.core k t :=
  host_run_next (M := Sys2Proof.core) h

theorem runWords_nil (s : State) : runWords [] s = .next { s with inputs := [] } := rfl

/-- The first word of a run is executed with the other words still presented. -/
theorem runWords_cons {w : Word} {ws : List Word} {s t : State}
    (h : stepCommand w (presenting ws s) = .next t) :
    runWords (w :: ws) s = Host.Core.run Sys2Proof.core ws.length t :=
  run_next (s := presenting (w :: ws) s) ((step_command rfl).trans h)

end Sys2Proof.Machine
end

