-- ==== Sys2Proof/Tests/Slice0.lean ====
section
/-!
SUPPORT. The model's own tests. Expected results are the spec's: words from 30_encoding.md R67 to R69 and R78, rows of
41_set.md R113 and 42_get.md R127, vectors of 95_test_vectors.md. Then, for every obligation with hypotheses, a witness
that meets them.
-/

namespace Sys2Proof.Tests

open Sys2Proof Sys2Proof.Machine

/-! ### Small states -/

/-- The next state, if there is one. -/
def after : Host.Outcome State Fault Refusal → Option State
  | .next s => some s
  | _ => none

/-- The buffer list of the next state. -/
def bufAfter (o : Host.Outcome State Fault Refusal) : Option Memory := (after o).map State.buf

/-- The responses of the next state. -/
def rspAfter (o : Host.Outcome State Fault Refusal) : Option (List RspWord) := (after o).map State.responses

/-- A constructed block with these buffer cells. -/
def arr (e : Width) (l : Index) (buf : Memory) : State := { newArray e l State.reset with buf := buf }

/-! ### Decoding: words written out bit by bit -/

theorem test_decode_construct : decode 0b00000100000000000000010100000000#32 = .ok (.construct 4#4 5#16) := by decide

theorem test_decode_construct_illegal_width :
    decode 0b00001001000000000000010100000000#32 = .ok (.construct 9#4 5#16) := by decide

theorem test_decode_set : decode 0b01000000000000000000000110101110#32 = .ok (.set 1#16 174#8) := by decide

theorem test_decode_get : decode 0b10000000000000000000000100000000#32 = .ok (.get 1#16) := by decide

theorem test_decode_reserved : decode 0b11000000000000000000000000000000#32 = .error .reservedOpcode := by decide

theorem test_decode_must_be_zero :
    decode 0b10000000000000000000000100000001#32 = .error .mustBeZeroBitSet ∧
    decode 0b01000001000000000000000000000000#32 = .error .mustBeZeroBitSet ∧
    decode 0b00010000000000000000000000000000#32 = .error .mustBeZeroBitSet ∧
    decode 0b00000100000000000000010100000001#32 = .error .mustBeZeroBitSet := by decide

/-- The three patterns are disjoint (30_encoding.md R75). -/
theorem test_rows_disjoint :
    encodingTable.Pairwise (fun a b => (a.pattern ^^^ b.pattern) &&& a.mask &&& b.mask ≠ 0#32) := by decide

theorem test_decodeTableWord :
    decodeTableWord 32 0x04000500 = some (.construct 4#4 5#16) ∧
    decodeTableWord 32 0x40FFFFFF = some (.set 0xFFFF#16 0xFF#8) ∧
    decodeTableWord 32 0x80000100 = some (.get 1#16) ∧ decodeTableWord 32 0xC0000000 = none := by decide

/-! ### WellFormed: one ill-formed line for each check -/

theorem test_wellFormed_accepts :
    (AsmLine.construct 15 65535).wellFormed = true ∧ (AsmLine.set 65535 255).wellFormed = true ∧
    (AsmLine.get 65535).wellFormed = true ∧ (AsmLine.word 0xFFFFFFFF).wellFormed = true := by decide

theorem test_wellFormed_refuses :
    (AsmLine.construct 16 0).wellFormed = false ∧ (AsmLine.construct 1 65536).wellFormed = false ∧
    (AsmLine.set 65536 0).wellFormed = false ∧ (AsmLine.set 0 256).wellFormed = false ∧
    (AsmLine.get 65536).wellFormed = false ∧ (AsmLine.word 0x100000000).wellFormed = false := by decide

theorem test_assemble_text :
    assembleText "SET 0x1, 174 ; comment".toList = some 0x400001AE#32 ∧
    assembleText "set 1, 174".toList = none ∧ assembleText "GET 65536".toList = none := by decide

/-! ### The three commands, one step each -/

/-- 40_construct.md R90, the example. -/
theorem test_construct_example :
    after (exec (.construct 4#4 5#16) (arr 8#4 2#16 [(0, 0xA5#8)])) =
      some { constructed := true, ebits := 4#4, len := 5#16, setMask := 0xF0#8, getMask := 0x0F#8, bufSize := 3#17,
             buf := [], inputs := [], responses := [0x000#11] } := by decide

/-- 95_test_vectors.md V9, V11: a refused width leaves the array. -/
theorem test_construct_refused :
    after (exec (.construct 9#4 5#16) (arr 4#4 5#16 [(0, 0x0A#8)])) =
      some { arr 4#4 5#16 [(0, 0x0A#8)] with responses := [0x200#11] } := by decide

/-- 95_test_vectors.md V30 and V36: a crossing SET stores a part in one byte. -/
theorem test_set_crossing :
    bufAfter (exec (.set 2#16 0xFF#8) (arr 3#4 8#16 [])) = some [(0, 0x03#8)] ∧
    bufAfter (exec (.set 3#16 0xA8#8) (arr 5#4 8#16 [(0, 0xFF#8)])) = some [(0, 0xFF#8), (1, 0x01#8)] := by decide

/-- 95_test_vectors.md V18 and V34: a SET clears bits as well, and a byte that becomes 0 is no longer listed. -/
theorem test_set_clears :
    bufAfter (exec (.set 1#16 0x3F#8) (arr 2#4 4#16 [(0, 0xE7#8)])) = some [(0, 0xC7#8)] ∧
    bufAfter (exec (.set 0#16 0x00#8) (arr 8#4 2#16 [(0, 0xA5#8), (1, 0x3C#8)])) = some [(1, 0x3C#8)] := by decide

/-- 95_test_vectors.md V33 and V40: a crossing GET returns bits from the top of the same byte. -/
theorem test_get_crossing :
    rspAfter (exec (.get 2#16) (arr 3#4 8#16 [(0, 0xE2#8)])) = some [0x005#11] ∧
    rspAfter (exec (.get 1#16) (arr 7#4 8#16 [(0, 0x01#8)])) = some [0x040#11] := by decide

/-- 95_test_vectors.md V20: index LEN is accepted, the next is not. -/
theorem test_get_bound :
    rspAfter (exec (.get 5#16) (arr 4#4 5#16 [(2, 0x0F#8)])) = some [0x00F#11] ∧
    rspAfter (exec (.get 6#16) (arr 4#4 5#16 [(2, 0x0F#8)])) = some [0x100#11] := by decide

/-! ### The datapaths -/

/-- Rows of 41_set.md R113: old byte, value, SETMASK, s, new byte. -/
theorem test_insert_rows :
    insertBits 0x0F#8 0xAE#8 0xF0#8 0 = 0xAF#8 ∧ insertBits 0x00#8 0x05#8 0xF0#8 0 = 0x00#8 ∧
    insertBits 0x00#8 0x80#8 0x80#8 5 = 0x04#8 ∧ insertBits 0xFF#8 0x7F#8 0x80#8 5 = 0xFB#8 ∧
    insertBits 0x00#8 0xA0#8 0xE0#8 3 = 0x14#8 ∧ insertBits 0x00#8 0xE0#8 0xE0#8 6 = 0x03#8 ∧
    insertBits 0x00#8 0xFE#8 0xFE#8 7 = 0x01#8 := by decide

/-- Rows of 42_get.md R127: byte read, GETMASK, r, data. -/
theorem test_extract_rows :
    extractBits 0xAE#8 0x0F#8 4 = 0x0A#8 ∧ extractBits 0xAE#8 0x0F#8 8 = 0x0E#8 ∧
    extractBits 0x04#8 0x01#8 6 = 0x01#8 ∧ extractBits 0x14#8 0x07#8 6 = 0x05#8 ∧
    extractBits 0x83#8 0x07#8 9 = 0x07#8 ∧ extractBits 0x81#8 0x7F#8 14 = 0x60#8 ∧
    extractBits 0xFF#8 0x1F#8 12 = 0x1F#8 ∧ extractBits 0xCF#8 0x3F#8 10 = 0x3F#8 := by decide

/-! ### Steps -/

/-- 95_test_vectors.md V26: `IllegalCommand` comes before `NotConstructed`, and that before `IndexOutOfRange`. -/
theorem test_step_priority :
    rspAfter (step (State.reset.withFetchWord 32 0x80000101)) = some [0x400#11] ∧
    rspAfter (step (State.reset.withFetchWord 32 0x40FFFFFF)) = some [0x300#11] ∧
    rspAfter (step (State.reset.withFetchWord 32 0x00000000)) = some [0x200#11] := by decide

/-- 70_reset_and_hazards.md R155: a reset gives no response and takes the array away. -/
theorem test_step_reset :
    after (step { arr 4#4 5#16 [(0, 0x0A#8)] with inputs := [.reset, .command 0#32] }) =
      some { State.reset with inputs := [.command 0#32] } := by decide

/-! ### Witnesses: states and operands that meet the hypotheses of the obligations -/

/-- An array of 3-bit elements: index 1 does not cross, index 2 does, index 8 is `LEN`. -/
def w3 : State := arr 3#4 8#16 [(0, 0xE2#8), (1, 0x71#8)]

/-- The largest array (40_construct.md R96). -/
def wMax : State := arr 8#4 0xFFFF#16 [(65535, 0xA5#8)]

/-- The smallest array. -/
def wMin : State := arr 1#4 0#16 []

theorem w3_inv : StateInv w3 := inv_of_invCheck (by decide)

theorem wMax_inv : StateInv wMax := inv_of_invCheck (by decide)

theorem wMin_inv : StateInv wMin := inv_of_invCheck (by decide)

theorem witness_DecodeInvertsEncode :
    decode 0x400001AE#32 = .ok (.set 1#16 0xAE#8) ∧ encode (.set 1#16 0xAE#8) = 0x400001AE#32 := by decide

theorem witness_AssemblyOperandRanges :
    (AsmLine.construct 15 65535).assemble = some 0x0FFFFF00#32 ∧
    (AsmLine.set 65535 255).assemble = some 0x40FFFFFF#32 ∧
    (AsmLine.get 65535).assemble = some 0x80FFFF00#32 ∧
    (AsmLine.word 0xFFFFFFFF).assemble = some 0xFFFFFFFF#32 := by decide

theorem witness_ResetReplacesAnyState :
    ({ w3 with inputs := [.reset, .command 0#32] } : State).inputs = .reset :: [.command 0#32] := rfl

theorem witness_IdleBlockWaits : w3.inputs = [] := rfl

theorem witness_StepRunsDecodedCommand :
    ({ w3 with inputs := [.command 0x80000200#32] } : State).inputs = .command 0x80000200#32 :: [] ∧
    decode 0x80000200#32 = .ok (.get 2#16) := by decide

/-- One word for each of the four cases. -/
theorem witness_IllegalWordAnswered :
    (0xC0000000#32).extractLsb' 30 2 = 3#2 ∧
    ((0x10000000#32).extractLsb' 30 2 = 0#2 ∧ (0x10000000#32).extractLsb' 28 2 ≠ 0#2) ∧
    ((0x04000501#32).extractLsb' 30 2 = 0#2 ∧ (0x04000501#32).extractLsb' 0 8 ≠ 0#8) ∧
    ((0x41000000#32).extractLsb' 30 2 = 1#2 ∧ (0x41000000#32).extractLsb' 24 6 ≠ 0#6) ∧
    ((0x8F000600#32).extractLsb' 30 2 = 2#2 ∧ (0x8F000600#32).extractLsb' 24 6 ≠ 0#6) ∧
    ((0x80000101#32).extractLsb' 30 2 = 2#2 ∧ (0x80000101#32).extractLsb' 0 8 ≠ 0#8) := by decide

theorem w3_inv_with_input (c : Input) : StateInv { w3 with inputs := [c] } := ⟨w3_inv.mem_wf, fun h =>
  let a := w3_inv.array h; ⟨a.1, a.2, a.3, a.4, a.5, a.6⟩⟩

theorem witness_StepKeepsInvariant :
    StateInv { w3 with inputs := [.command 0x80000200#32] } ∧
    step { w3 with inputs := [.command 0x80000200#32] } = .next { w3 with responses := [0x005#11] } :=
  ⟨w3_inv_with_input _, rfl⟩

theorem witness_EveryCommandIsAnswered : StateInv w3 ∧ StateInv wMax ∧ StateInv wMin ∧ StateInv State.reset :=
  ⟨w3_inv, wMax_inv, wMin_inv, inv_of_invCheck (by decide)⟩

theorem witness_InputsTakenInOrder :
    step { w3 with inputs := [.command 0xC0000000#32, .reset] } =
      .next { w3 with inputs := [.reset], responses := [0x400#11] } := rfl

/-- Both ends of the refused and of the legal widths, and an address on each side of `BUFSIZE`. -/
theorem witness_ConstructMakesNewArray :
    (0#4 = 0#4 ∨ 8 < (0#4).toNat) ∧ (9#4 = 0#4 ∨ 8 < (9#4).toNat) ∧ (15#4 = 0#4 ∨ 8 < (15#4).toNat) ∧
    (1 ≤ (1#4).toNat ∧ (1#4).toNat ≤ 8) ∧ (1 ≤ (8#4).toNat ∧ (8#4).toNat ≤ 8) ∧
    65535 < (newArray 8#4 0xFFFF#16 w3).bufSize.toNat ∧ (newArray 8#4 0xFFFF#16 w3).bufSize.toNat ≤ 65536 := by
  decide

theorem witness_NewArrayForgetsOld : 1 ≤ (8#4).toNat ∧ (8#4).toNat ≤ 8 := by decide

theorem witness_MaskTable :
    (8#4, 0xFF#8, 0xFF#8) ∈ [(1#4, 0x80#8, 0x01#8), (2#4, 0xC0#8, 0x03#8), (3#4, 0xE0#8, 0x07#8),
      (4#4, 0xF0#8, 0x0F#8), (5#4, 0xF8#8, 0x1F#8), (6#4, 0xFC#8, 0x3F#8), (7#4, 0xFE#8, 0x7F#8),
      (8#4, 0xFF#8, 0xFF#8)] := by decide

/-- A product that is a multiple of 8, and one that is not. -/
theorem witness_BufferSizeAgainstCeiling :
    (1 ≤ (4#4).toNat ∧ (4#4).toNat ≤ 8) ∧ (4#16).toNat * (4#4).toNat % 8 = 0 ∧
    (5#16).toNat * (4#4).toNat % 8 ≠ 0 := by decide

theorem get1_is_no_set : ∀ w ∈ [0x80000100#32], ∀ i v, decode w ≠ .ok (.set i v) := by
  have h : decode 0x80000100#32 = .ok (.get 1#16) := by decide
  intro w hw i v hd
  rw [List.mem_singleton.1 hw, h] at hd
  cases hd

theorem get1_is_no_construct :
    ∀ w ∈ [0x80000100#32], ∀ e l, decode w = .ok (.construct e l) → e = 0#4 ∨ 8 < e.toNat := by
  have h : decode 0x80000100#32 = .ok (.get 1#16) := by decide
  intro w hw e l hd
  rw [List.mem_singleton.1 hw, h] at hd
  cases hd

theorem witness_NewArrayReadsZero :
    (1 ≤ (3#4).toNat ∧ (3#4).toNat ≤ 8) ∧ 8#16 ≤ 8#16 ∧
    (∀ w ∈ [0x80000100#32], ∀ i v, decode w ≠ .ok (.set i v)) ∧
    (∀ w ∈ [0x80000100#32], ∀ e l, decode w = .ok (.construct e l) → e = 0#4 ∨ 8 < e.toNat) :=
  ⟨by decide, by decide, get1_is_no_set, get1_is_no_construct⟩

/-- Each of the three cases: no array; one past `LEN`; index 0, a crossing index and `LEN` itself, and the last index
of the largest array. -/
theorem witness_SetFollowsAlgorithm :
    State.reset.constructed = false ∧ (w3.constructed = true ∧ w3.len < 9#16) ∧
    (StateInv w3 ∧ w3.constructed = true ∧ 0#16 ≤ w3.len ∧ 2#16 ≤ w3.len ∧ 8#16 ≤ w3.len) ∧
    (StateInv wMax ∧ wMax.constructed = true ∧ 0xFFFF#16 ≤ wMax.len) :=
  ⟨rfl, by decide, ⟨w3_inv, by decide⟩, wMax_inv, by decide⟩

/-- A position inside the span in byte `b`, one of the span past it, and one outside the span. -/
theorem witness_SetWritesItsSpanInOneByte :
    StateInv w3 ∧ w3.constructed = true ∧ 2#16 ≤ w3.len ∧
    (7 / 8 = byteIndex 2#16 w3.ebits ∧ inSpan 2#16 w3.ebits 7) ∧
    (8 / 8 ≠ byteIndex 2#16 w3.ebits ∧ inSpan 2#16 w3.ebits 8) ∧ ¬ inSpan 2#16 w3.ebits 5 :=
  ⟨w3_inv, by decide⟩

theorem witness_SetLeavesOtherElements :
    StateInv w3 ∧ w3.constructed = true ∧ 8#16 ≤ w3.len ∧ 7#16 ≠ 8#16 ∧ inSpan 7#16 w3.ebits 23 :=
  ⟨w3_inv, by decide⟩

theorem witness_LaterSetWins : StateInv w3 ∧ w3.constructed = true ∧ 8#16 ≤ w3.len := ⟨w3_inv, by decide⟩

/-- Two indices that hit the same byte. -/
theorem witness_SetsOfDifferentIndicesCommute :
    StateInv w3 ∧ w3.constructed = true ∧ 0#16 ≤ w3.len ∧ 2#16 ≤ w3.len ∧ 0#16 ≠ 2#16 ∧
    byteIndex 0#16 w3.ebits = byteIndex 2#16 w3.ebits := ⟨w3_inv, by decide⟩

/-- Two blocks that differ in `GETMASK` and in another byte. -/
def w3other : State := { w3 with getMask := 0#8, buf := [(0, 0xE2#8), (2, 0x11#8)] }

theorem witness_SetFootprint :
    Memory.wf w3.buf = true ∧ Memory.wf w3other.buf = true ∧ w3other.constructed = w3.constructed ∧
    w3other.len = w3.len ∧ w3other.ebits = w3.ebits ∧ w3other.setMask = w3.setMask ∧ Admits w3 2#16 ∧
    readByte (byteIndex 2#16 w3.ebits) w3other = readByte (byteIndex 2#16 w3.ebits) w3 ∧
    exec (.set 2#16 0x40#8) w3 = .next { w3 with buf := [(0, 0xE1#8), (1, 0x71#8)], responses := [0#11] } :=
  ⟨by decide, by decide, rfl, rfl, rfl, rfl, by decide, by decide, rfl⟩

theorem witness_GetFollowsAlgorithm :
    State.reset.constructed = false ∧ (w3.constructed = true ∧ w3.len < 9#16) ∧
    (StateInv w3 ∧ w3.constructed = true ∧ 0#16 ≤ w3.len ∧ 2#16 ≤ w3.len ∧ 8#16 ≤ w3.len) ∧
    (StateInv wMin ∧ wMin.constructed = true ∧ 0#16 ≤ wMin.len) :=
  ⟨rfl, by decide, ⟨w3_inv, by decide⟩, wMin_inv, by decide⟩

/-- Every data bit of a crossing index: `k` = 0 to 2, and the first bit above. -/
theorem witness_GetReadsItsSpanWrappedInOneByte :
    StateInv w3 ∧ w3.constructed = true ∧ 2#16 ≤ w3.len ∧ 0 < w3.ebits.toNat ∧ 2 < w3.ebits.toNat ∧
    w3.ebits.toNat ≤ 3 := ⟨w3_inv, by decide⟩

theorem witness_RotationIsCircular : 0 ≤ 7 ∧ 7 ≤ 7 := by decide

/-- Two blocks that differ in `SETMASK` and in another byte. -/
def w3third : State := { w3 with setMask := 0#8, buf := [(0, 0xE2#8), (2, 0x11#8)] }

theorem witness_GetFootprint :
    w3third.constructed = w3.constructed ∧ w3third.len = w3.len ∧ w3third.ebits = w3.ebits ∧
    w3third.getMask = w3.getMask ∧ Admits w3 2#16 ∧
    readByte (byteIndex 2#16 w3.ebits) w3third = readByte (byteIndex 2#16 w3.ebits) w3 ∧
    exec (.get 2#16) w3 = .next { w3 with responses := [0x005#11] } :=
  ⟨rfl, rfl, rfl, rfl, by decide, by decide, rfl⟩

theorem witness_RoundTripAtNonCrossingIndex :
    StateInv w3 ∧ w3.constructed = true ∧ 7#16 ≤ w3.len ∧ ¬ crossing 7#16 w3.ebits ∧
    (∀ w ∈ [0x80000100#32], ∀ v, decode w ≠ .ok (.set 7#16 v)) ∧
    (∀ w ∈ [0x80000100#32], ∀ e l, decode w = .ok (.construct e l) → e = 0#4 ∨ 8 < e.toNat) :=
  ⟨w3_inv, by decide, by decide, by decide, fun w hw v => get1_is_no_set w hw _ v, get1_is_no_construct⟩

/-- The least and the greatest overlap: `c` = 1 at index 2, `c` = 2 at index 5. -/
theorem witness_RoundTripAtCrossingIndex :
    StateInv w3 ∧ w3.constructed = true ∧ (2#16 ≤ w3.len ∧ crossing 2#16 w3.ebits) ∧
    (5#16 ≤ w3.len ∧ crossing 5#16 w3.ebits) := ⟨w3_inv, by decide⟩

theorem witness_GetInsertionIsInvisible : StateInv w3 ∧ StateInv State.reset :=
  ⟨w3_inv, inv_of_invCheck (by decide)⟩

theorem witness_MappedByteExists :
    (StateInv w3 ∧ w3.constructed = true ∧ 8#16 ≤ w3.len ∧ 8#16 = w3.len) ∧
    (StateInv wMax ∧ wMax.constructed = true ∧ 0xFFFF#16 ≤ wMax.len ∧ 0xFFFF#16 = wMax.len) :=
  ⟨⟨w3_inv, by decide⟩, wMax_inv, by decide⟩

theorem witness_CrossingIndexTable :
    (1 ≤ (1#4).toNat ∧ (1#4).toNat ≤ 8) ∧ (1 ≤ (8#4).toNat ∧ (8#4).toNat ≤ 8) ∧ crossing 5#16 3#4 ∧
    crossing 6#16 5#4 ∧ crossing 2#16 6#4 ∧ crossing 1#16 7#4 ∧ ¬ crossing 0#16 7#4 := by decide

/-- A word for each error and one without. -/
theorem witness_ErrorsRaisedExactlyWhen :
    StateInv { w3 with inputs := [.command 0xC0000000#32] } ∧
    rspAfter (step { w3 with inputs := [.command 0xC0000000#32] }) = some [0x400#11] ∧
    rspAfter (step { w3 with inputs := [.command 0x09000500#32] }) = some [0x200#11] ∧
    rspAfter (step { State.reset with inputs := [.command 0x80000000#32] }) = some [0x300#11] ∧
    rspAfter (step { w3 with inputs := [.command 0x80000900#32] }) = some [0x100#11] ∧
    rspAfter (step { w3 with inputs := [.command 0x80000800#32] }) = some [0x000#11] :=
  ⟨w3_inv_with_input _, by decide⟩

theorem witness_ErrorsLeaveStateUntouched :
    step { w3 with inputs := [.command 0x80000900#32] } = .next { w3 with responses := [0x100#11] } ∧
    ({ w3 with responses := [0x100#11] } : State).responses = w3.responses ++ [0x100#11] ∧
    rspStatus 0x100#11 ≠ 0#3 := ⟨rfl, rfl, by decide⟩

theorem witness_ErroredCommandIsInvisible :
    StateInv w3 ∧ runWords [0x09000500#32] w3 = .next { w3 with responses := [0x200#11] } ∧
    ({ w3 with responses := [0x200#11] } : State).responses = w3.responses ++ [0x200#11] ∧
    rspStatus 0x200#11 ≠ 0#3 := ⟨w3_inv, rfl, rfl, by decide⟩

theorem witness_ResponsesAreWellFormed :
    step { w3 with inputs := [.command 0x80000200#32] } = .next { w3 with responses := [0x005#11] } ∧
    rspData 0x005#11 ≠ 0#8 := ⟨rfl, by decide⟩

/-- A state that no run reaches, in which the fault is raised. -/
theorem witness_FaultOnlyAtMissingByte :
    exec (.get 8#16) { w3 with bufSize := 1#17 } = .fault .noSuchByte ∧
    exec (.set 8#16 0#8) { w3 with bufSize := 1#17 } = .fault .noSuchByte := ⟨rfl, rfl⟩

theorem witness_SetFrame :
    exec (.set 2#16 0x40#8) w3 = .next { w3 with buf := [(0, 0xE1#8), (1, 0x71#8)], responses := [0#11] } ∧
    byteIndex 2#16 w3.ebits = 0 ∧ 1 ≠ 0 ∧ ¬ Admits w3 9#16 ∧
    exec (.set 9#16 0x40#8) w3 = .next { w3 with responses := [0x100#11] } :=
  ⟨rfl, by decide, by decide, by decide, rfl⟩

theorem witness_GetFrame : exec (.get 2#16) w3 = .next { w3 with responses := [0x005#11] } := rfl

theorem witness_ConstructFrame :
    exec (.construct 9#4 5#16) w3 = .next { w3 with responses := [0x200#11] } ∧ ¬ legalWidth 9#4 ∧
    exec (.construct 4#4 5#16) w3 = .next { arr 4#4 5#16 [] with responses := [0#11] } ∧ legalWidth 4#4 :=
  ⟨rfl, by decide, rfl, by decide⟩

/-- A SET of index 2 presented to `w3`: no reset, no CONSTRUCT, and not the byte at address 1. -/
def w3set : State := { w3 with inputs := [.command 0x40000240#32] }

theorem w3set_head {w : Word} (h : w3set.inputs.head? = some (.command w)) : decode w = .ok (.set 2#16 0x40#8) := by
  have : w = 0x40000240#32 := by simpa [w3set, eq_comm] using h
  subst this
  decide

theorem w3set_is_no_construct {w : Word} {e : Width} {l : Index}
    (h : w3set.inputs.head? = some (.command w)) (hd : decode w = .ok (.construct e l)) :
    e = 0#4 ∨ 8 < e.toNat := by
  rw [w3set_head h] at hd
  cases hd

theorem w3set_writes_byte_0 {w : Word} {i : Index} {v : Byte}
    (h : w3set.inputs.head? = some (.command w)) (hd : decode w = .ok (.set i v)) :
    byteIndex i w3set.ebits ≠ 1 := by
  rw [w3set_head h] at hd
  cases hd
  decide

theorem witness_RegistersWrittenOnlyByConstruct :
    step w3set = .next { w3 with buf := [(0, 0xE1#8), (1, 0x71#8)], responses := [0#11] } ∧
    w3set.inputs.head? ≠ some .reset ∧ w3set.constructed = true ∧
    (∀ w e l, w3set.inputs.head? = some (.command w) → decode w = .ok (.construct e l) →
      e = 0#4 ∨ 8 < e.toNat) :=
  ⟨rfl, by decide, rfl, fun _ _ _ => w3set_is_no_construct⟩

theorem witness_BufferByteChangesOnlyByResetConstructOrItsSet :
    step w3set = .next { w3 with buf := [(0, 0xE1#8), (1, 0x71#8)], responses := [0#11] } ∧
    w3set.inputs.head? ≠ some .reset ∧
    (∀ w e l, w3set.inputs.head? = some (.command w) → decode w = .ok (.construct e l) →
      e = 0#4 ∨ 8 < e.toNat) ∧
    (∀ w i v, w3set.inputs.head? = some (.command w) → decode w = .ok (.set i v) →
      byteIndex i w3set.ebits ≠ 1) :=
  ⟨rfl, by decide, fun _ _ _ => w3set_is_no_construct, fun _ _ _ => w3set_writes_byte_0⟩

/-- Two blocks without an array that differ in every unspecified register and in the buffer; the next input makes an
array. -/
theorem witness_UnspecifiedRegistersNeverObserved :
    let s : State := { State.reset with inputs := [.command 0x04000500#32] }
    let s' : State := { w3 with constructed := false, inputs := [.command 0x04000500#32] }
    s.constructed = false ∧ s'.constructed = false ∧ s'.inputs = s.inputs ∧ s'.responses = s.responses ∧ s ≠ s' := by
  decide

end Sys2Proof.Tests
end

section
/-! PROOFS of the family 00_scope.md: a step runs the command its word decodes to, and `rotl8` is the library's circular
rotation. -/

namespace Sys2Proof.Machine

/-- Settles O11: taking the command word off the list, then dispatching on its decoding, adds nothing around `exec`. -/
theorem stepRunsDecodedCommand : Obligations.StepRunsDecodedCommand := by
  intro s w rest i hs hd
  calc step s = stepCommand w (accept rest s) := step_command hs
    _ = exec i { s with inputs := rest } := stepCommand_decoded hd _

/-- 00_scope.md R9 is the library's rotation, so its lemmas about `BitVec.rotateLeft` serve `rotl8`. -/
theorem rotl8_eq_rotateLeft (x : Byte) {n : Nat} (hn : n < 8) : rotl8 x n = x.rotateLeft n :=
  (BitVec.rotateLeft_eq_rotateLeftAux_of_lt hn).symm

/-- Bit `q` of the rotated byte: from the top `n` bits when `q < n`, from the bits below them otherwise. -/
theorem getLsbD_rotl8 (x : Byte) {n q : Nat} (hn : n < 8) (hq : q < 8) :
    (rotl8 x n).getLsbD q = if q < n then x.getLsbD (8 - n + q) else x.getLsbD (q - n) := by
  rw [rotl8_eq_rotateLeft x hn, BitVec.getLsbD_rotateLeft_of_le hn]
  simp [hq, cond_eq_ite]

/-- Settles O30: bit `p` moves up by `n`, or wraps round past bit 7 to `p + n - 8`, which lies below `n`. -/
theorem rotationIsCircular : Obligations.RotationIsCircular := by
  intro x n p hn hp
  rw [getLsbD_rotl8 x (by omega) (Nat.mod_lt _ (by decide))]
  by_cases hwrap : p + n < 8
  · have hq : (p + n) % 8 = p + n := Nat.mod_eq_of_lt hwrap
    rw [hq, if_neg (by omega), Nat.add_sub_cancel]
  · have hq : (p + n) % 8 = p + n - 8 := by omega
    have hback : 8 - n + (p + n - 8) = p := by omega
    rw [hq, if_pos (by omega), hback]

end Sys2Proof.Machine
end

section
/-! PROOFS of the family 10_state.md: reset, the invariant of R33 and that every step keeps it, who writes the registers,
the values CONSTRUCT gives them, and when the model's own fault is raised. -/

namespace Sys2Proof.Machine

/-! ### What a step that answers a next state can do -/

theorem stepCommand_next {w : Word} {s t : State} (h : stepCommand w s = .next t) :
    (∃ r, decode w = .error r ∧ t = raise .illegalCommand s) ∨ (∃ i, decode w = .ok i ∧ exec i s = .next t) := by
  cases hd : decode w with
  | error r =>
    rw [stepCommand_illegal hd] at h
    exact .inl ⟨r, rfl, (Host.Outcome.next.inj h).symm⟩
  | ok i => exact .inr ⟨i, rfl, stepCommand_decoded hd s ▸ h⟩

theorem step_next {s t : State} (h : step s = .next t) :
    (s.inputs = [] ∧ t = s) ∨
    (∃ rest, s.inputs = .reset :: rest ∧ t = resetBlock (accept rest s)) ∨
    (∃ w rest, s.inputs = .command w :: rest ∧ stepCommand w (accept rest s) = .next t) := by
  match hs : s.inputs with
  | [] =>
    rw [step_idle hs] at h
    exact .inl ⟨rfl, (Host.Outcome.next.inj h).symm⟩
  | .reset :: rest =>
    rw [step_reset hs] at h
    exact .inr (.inl ⟨rest, rfl, (Host.Outcome.next.inj h).symm⟩)
  | .command w :: rest => exact .inr (.inr ⟨w, rest, rfl, step_command hs ▸ h⟩)

/-! ### The six registers -/

/-- The six registers of S (10_state.md R20) hold the same in `t` as in `s`; nothing is said of the buffer and of the
host's lists. -/
structure SameRegisters (s t : State) : Prop where
  constructed : t.constructed = s.constructed
  ebits : t.ebits = s.ebits
  len : t.len = s.len
  setMask : t.setMask = s.setMask
  getMask : t.getMask = s.getMask
  bufSize : t.bufSize = s.bufSize

theorem SameRegisters.refl (s : State) : SameRegisters s s := ⟨rfl, rfl, rfl, rfl, rfl, rfl⟩

theorem SameRegisters.trans {s t u : State} (h : SameRegisters s t) (h' : SameRegisters t u) : SameRegisters s u :=
  ⟨h'.1.trans h.1, h'.2.trans h.2, h'.3.trans h.3, h'.4.trans h.4, h'.5.trans h.5, h'.6.trans h.6⟩

theorem sameRegisters_accept (rest : List Input) (s : State) : SameRegisters s (accept rest s) :=
  ⟨rfl, rfl, rfl, rfl, rfl, rfl⟩

theorem sameRegisters_respond (st : Status) (d : Byte) (s : State) : SameRegisters s (respond st d s) :=
  ⟨rfl, rfl, rfl, rfl, rfl, rfl⟩

theorem sameRegisters_raise (e : Error) (s : State) : SameRegisters s (raise e s) :=
  sameRegisters_respond _ _ s

theorem sameRegisters_storeByte (m : Memory) (s : State) : SameRegisters s { s with buf := m } :=
  ⟨rfl, rfl, rfl, rfl, rfl, rfl⟩

/-- Of the three commands only a CONSTRUCT of a legal width writes registers, and it sets `CONSTRUCTED` (10_state.md
R32). -/
theorem exec_sameRegisters_or_construct {i : Instr} {s t : State} (h : exec i s = .next t) :
    SameRegisters s t ∨ (∃ w l, i = .construct w l ∧ legalWidth w ∧ t.constructed = true) := by
  cases i with
  | construct w l =>
    obtain ⟨-, rfl⟩ | ⟨hw, rfl⟩ := exec_construct_next h
    · exact .inl (sameRegisters_raise _ s)
    · exact .inr ⟨w, l, rfl, hw, rfl⟩
  | set x v =>
    obtain ⟨e, -, rfl⟩ | ⟨-, -, rfl⟩ := exec_set_next h
    · exact .inl (sameRegisters_raise e s)
    · exact .inl ((sameRegisters_storeByte _ s).trans (sameRegisters_respond _ _ _))
  | get x =>
    obtain ⟨e, -, rfl⟩ | ⟨-, -, rfl⟩ := exec_get_next h
    · exact .inl (sameRegisters_raise e s)
    · exact .inl (sameRegisters_respond _ _ s)

/-- The same of a step, whatever its input, unless it is a reset. -/
theorem step_sameRegisters_or_construct {s t : State} (h : step s = .next t)
    (hreset : s.inputs.head? ≠ some .reset) :
    SameRegisters s t ∨ (∃ w e l, s.inputs.head? = some (.command w) ∧ decode w = .ok (.construct e l) ∧
      legalWidth e ∧ t.constructed = true) := by
  obtain ⟨-, rfl⟩ | ⟨rest, hin, -⟩ | ⟨w, rest, hin, hcmd⟩ := step_next h
  · exact .inl (.refl _)
  · simp [hin] at hreset
  · have haccept := sameRegisters_accept rest s
    obtain ⟨r, -, rfl⟩ | ⟨i, hd, hexec⟩ := stepCommand_next hcmd
    · exact .inl (haccept.trans (sameRegisters_raise _ _))
    · obtain hsame | ⟨e, l, rfl, he, hc⟩ := exec_sameRegisters_or_construct hexec
      · exact .inl (haccept.trans hsame)
      · exact .inr ⟨w, e, l, by simp [hin], hd, he, hc⟩

/-- Settles O45: either no register changed, or the input was a CONSTRUCT of a legal width, which leaves `CONSTRUCTED`
at 1 and is what the second part's hypothesis rules out. -/
theorem registersWrittenOnlyByConstruct : Obligations.RegistersWrittenOnlyByConstruct := by
  intro s t h hreset
  obtain hsame | ⟨w, e, l, hin, hd, he, hc⟩ := step_sameRegisters_or_construct h hreset
  · exact ⟨hsame.constructed.trans,
      fun _ => ⟨hsame.constructed, hsame.ebits, hsame.len, hsame.setMask, hsame.getMask, hsame.bufSize⟩⟩
  · refine ⟨fun _ => hc, fun hno => ?_⟩
    obtain ⟨hpos, hle⟩ := (legalWidth_iff e).1 he
    obtain rfl | hbig := hno w e l hin hd
    · simp at hpos
    · omega

/-! ### The invariant of R33, operation by operation -/

/-- R33 speaks of the registers and of the buffer's cells only. -/
theorem ArrayInv.of_sameRegisters {s t : State} (h : ArrayInv s) (hr : SameRegisters s t)
    (hb : Memory.below s.bufSize.toNat t.buf = true) : ArrayInv t where
  ebits_pos := hr.ebits ▸ h.ebits_pos
  ebits_le := hr.ebits ▸ h.ebits_le
  setMask_eq := by rw [hr.setMask, hr.ebits, h.setMask_eq]
  getMask_eq := by rw [hr.getMask, hr.ebits, h.getMask_eq]
  bufSize_eq := by rw [hr.bufSize, hr.len, hr.ebits, h.bufSize_eq]
  buf_below := hr.bufSize ▸ hb

/-- What leaves registers and buffer alone keeps the invariant. -/
theorem StateInv.of_sameRegisters {s t : State} (h : StateInv s) (hr : SameRegisters s t) (hb : t.buf = s.buf) :
    StateInv t where
  mem_wf := hb ▸ h.mem_wf
  array hc :=
    have ha := h.array (hr.constructed ▸ hc)
    ha.of_sameRegisters hr (hb ▸ ha.buf_below)

theorem StateInv.accept {s : State} (h : StateInv s) (rest : List Input) : StateInv (accept rest s) :=
  h.of_sameRegisters (sameRegisters_accept rest s) rfl

theorem StateInv.respond {s : State} (h : StateInv s) (st : Status) (d : Byte) : StateInv (respond st d s) :=
  h.of_sameRegisters (sameRegisters_respond st d s) rfl

theorem StateInv.raise {s : State} (h : StateInv s) (e : Error) : StateInv (raise e s) :=
  h.respond _ _

/-- A write to a byte that exists keeps the list canonical, and below `BUFSIZE` (R33 (e)). -/
theorem StateInv.storeByte {s : State} (h : StateInv s) {a : Nat} (ha : a < s.bufSize.toNat) (v : Byte) :
    StateInv { s with buf := Memory.set s.buf a v } where
  mem_wf := Memory.wf_set a v h.mem_wf
  array hc :=
    have hinv := h.array hc
    hinv.of_sameRegisters (sameRegisters_storeByte _ s) (Memory.below_set ha hinv.buf_below)

theorem arrayInv_newArray {w : Width} (hw : legalWidth w) (l : Index) (s : State) : ArrayInv (newArray w l s) where
  ebits_pos := ((legalWidth_iff w).1 hw).1
  ebits_le := hw.2
  setMask_eq := setMaskOf_toNat hw
  getMask_eq := getMaskOf_toNat hw
  bufSize_eq := bufSizeOf_toNat hw.2 l
  buf_below := rfl

theorem stateInv_newArray {w : Width} (hw : legalWidth w) (l : Index) (s : State) : StateInv (newArray w l s) where
  mem_wf := rfl
  array _ := arrayInv_newArray hw l s

theorem stateInv_resetBlock (s : State) : StateInv (resetBlock s) where
  mem_wf := rfl
  array hc := absurd hc (by simp)

theorem exec_keeps_stateInv {i : Instr} {s t : State} (hs : StateInv s) (h : exec i s = .next t) : StateInv t := by
  cases i with
  | construct w l =>
    obtain ⟨-, rfl⟩ | ⟨hw, rfl⟩ := exec_construct_next h
    · exact hs.raise _
    · exact (stateInv_newArray hw l s).respond _ _
  | set x v =>
    obtain ⟨e, -, rfl⟩ | ⟨-, hbyte, rfl⟩ := exec_set_next h
    · exact hs.raise e
    · exact (hs.storeByte hbyte _).respond _ _
  | get x =>
    obtain ⟨e, -, rfl⟩ | ⟨-, -, rfl⟩ := exec_get_next h
    · exact hs.raise e
    · exact hs.respond _ _

theorem stepCommand_keeps_stateInv {w : Word} {s t : State} (hs : StateInv s) (h : stepCommand w s = .next t) :
    StateInv t := by
  obtain ⟨r, -, rfl⟩ | ⟨i, -, hexec⟩ := stepCommand_next h
  · exact hs.raise _
  · exact exec_keeps_stateInv hs hexec

/-- Settles O13: the block waits, is reset, or runs a command on the state with the word taken off the list. -/
theorem stepKeepsInvariant : Obligations.StepKeepsInvariant := by
  intro s t hs h
  obtain ⟨-, rfl⟩ | ⟨rest, -, rfl⟩ | ⟨w, rest, -, hcmd⟩ := step_next h
  · exact hs
  · exact stateInv_resetBlock _
  · exact stepCommand_keeps_stateInv (hs.accept rest) hcmd

/-! ### Reset -/

/-- Settles O8: a reset of the reset state gives that state again. -/
theorem resetMeetsInvariant : Obligations.ResetMeetsInvariant := stateInv_resetBlock State.reset

/-- Settles O7: with no array the first test before SET and GET already fails (60_exceptions.md R134). -/
theorem resetLeavesNothingConstructed : Obligations.ResetLeavesNothingConstructed := by
  have herr (index : Index) : accessError index State.reset = some .notConstructed :=
    accessError_of_not_constructed rfl index
  exact ⟨rfl, fun index value => exec_set_error (herr index) value, fun index => exec_get_error (herr index)⟩

/-! ### What CONSTRUCT stores -/

/-- Settles O18: every row's width is legal, and `setMaskOf` and `getMaskOf` of it are the row's masks. -/
theorem maskTable : Obligations.MaskTable := by
  intro length s row hrow
  have hmasks : legalWidth row.1 ∧ setMaskOf row.1 = row.2.1 ∧ getMaskOf row.1 = row.2.2 := by
    fin_cases hrow <;> decide
  obtain ⟨hlegal, hset, hget⟩ := hmasks
  exact ⟨_, exec_construct_legal hlegal length s, hset, hget⟩

/-- 90_conflicts.md C1: rounding down and adding one is rounding up, but for one more at the multiples of 8. -/
theorem div_eight_add_one_eq_ceil (n : Nat) : n / 8 + 1 = (n + 7) / 8 + (if n % 8 = 0 then 1 else 0) := by
  split <;> omega

/-- Settles O19: R26's formula for BUFSIZE, compared with the ceiling. -/
theorem bufferSizeAgainstCeiling : Obligations.BufferSizeAgainstCeiling := by
  intro ebits length s hpos hle
  refine ⟨_, exec_construct_legal ((legalWidth_iff ebits).2 ⟨hpos, hle⟩) length s, ?_⟩
  calc (bufSizeOf ebits length).toNat = length.toNat * ebits.toNat / 8 + 1 := bufSizeOf_toNat hle length
    _ = _ := div_eight_add_one_eq_ceil _

/-! ### The model's own fault (log 7) -/

theorem exec_set_missing {i : Index} {s : State} (ha : accessError i s = none)
    (hr : readByte (byteIndex i s.ebits) s = none) (v : Byte) : exec (.set i v) s = .fault .noSuchByte := by
  simp [exec, execSet, ha, hr]

theorem exec_get_missing {i : Index} {s : State} (ha : accessError i s = none)
    (hr : readByte (byteIndex i s.ebits) s = none) : exec (.get i) s = .fault .noSuchByte := by
  simp [exec, execGet, ha, hr]

/-- Where a byte is read, it can be written. -/
theorem exec_set_completes {i : Index} {old : Byte} {s : State} (ha : accessError i s = none)
    (hr : readByte (byteIndex i s.ebits) s = some old) (v : Byte) : ∃ t, exec (.set i v) s = .next t := by
  obtain ⟨hbyte, -⟩ := (readByte_eq_some_iff _ _ _).1 hr
  exact ⟨_, exec_set_ok ha hr ((writeByte_eq_some_iff _ _ _ _).2 ⟨hbyte, rfl⟩)⟩

/-- SET and GET have the same three cases: a test fails, the byte is missing, the byte is there. Only the second is a
fault. -/
theorem fault_iff_admitted_and_missing {o : Host.Outcome State Fault Refusal} {i : Index} {s : State}
    (herror : ∀ e, accessError i s = some e → ∃ t, o = .next t)
    (hmissing : accessError i s = none → readByte (byteIndex i s.ebits) s = none → o = .fault .noSuchByte)
    (hpresent : ∀ v, accessError i s = none → readByte (byteIndex i s.ebits) s = some v → ∃ t, o = .next t) :
    o = .fault .noSuchByte ↔ Admits s i ∧ s.bufSize.toNat ≤ byteIndex i s.ebits := by
  rw [← accessError_eq_none_iff, ← readByte_eq_none_iff]
  cases ha : accessError i s with
  | some e =>
    obtain ⟨t, rfl⟩ := herror e ha
    simp
  | none =>
    cases hr : readByte (byteIndex i s.ebits) s with
    | none => simp [hmissing ha hr]
    | some v =>
      obtain ⟨t, rfl⟩ := hpresent v ha hr
      simp

theorem exec_construct_completes (w : Width) (l : Index) (s : State) : ∃ t, exec (.construct w l) s = .next t := by
  by_cases hw : legalWidth w
  · exact ⟨_, exec_construct_legal hw l s⟩
  · exact ⟨_, exec_construct_illegal hw l s⟩

/-- Settles O41: the three cases of SET and of GET, and the two of CONSTRUCT. -/
theorem faultOnlyAtMissingByte : Obligations.FaultOnlyAtMissingByte := by
  refine ⟨fun index value s => ?set, fun index s => ?get, exec_construct_completes⟩
  case set =>
    exact (fault_iff_admitted_and_missing (fun _ he => ⟨_, exec_set_error he value⟩)
      (fun ha hr => exec_set_missing ha hr value) (fun _ ha hr => exec_set_completes ha hr value)).trans and_assoc
  case get =>
    exact (fault_iff_admitted_and_missing (fun _ he => ⟨_, exec_get_error he⟩)
      exec_get_missing (fun _ ha hr => ⟨_, exec_get_ok ha hr⟩)).trans and_assoc

end Sys2Proof.Machine
end

section
/-! PROOFS of the family 20_memory.md: the mapper (which byte an index addresses, which indices cross), the order in which
inputs are taken and responses given, and what changes a byte of the buffer. -/

namespace Sys2Proof.Machine

/-! ### The byte an index is mapped to -/

/-- 20_memory.md R48: the operand has 16 bits and the width is at most 8. -/
theorem bitOffset_lt {e : Width} (he : e.toNat ≤ 8) (index : Index) : bitOffset index e < 2 ^ 19 :=
  calc index.toNat * e.toNat ≤ index.toNat * 8 := Nat.mul_le_mul_left _ he
    _ < 2 ^ 16 * 8 := Nat.mul_lt_mul_of_pos_right index.isLt (by decide)

/-- R33 (d) read through the mapper: the slack index `LEN` is mapped to the last byte. -/
theorem ArrayInv.bufSize_eq_byteIndex_len {s : State} (h : ArrayInv s) :
    s.bufSize.toNat = byteIndex s.len s.ebits + 1 := h.bufSize_eq

theorem ArrayInv.byteIndex_lt {s : State} (h : ArrayInv s) {index : Index} (hi : index ≤ s.len) :
    byteIndex index s.ebits < s.bufSize.toNat := by
  rw [h.bufSize_eq_byteIndex_len]
  exact Nat.lt_succ_of_le (byteIndex_mono hi _)

/-- Settles O35: the mapper is monotone, and `BUFSIZE` is one more than the byte of index `LEN`. -/
theorem mappedByteExists : Obligations.MappedByteExists := by
  intro index s hs hc hi
  have harray : ArrayInv s := hs.array hc
  refine ⟨bitOffset_lt harray.ebits_le index, harray.byteIndex_lt hi, ?_⟩
  rintro rfl
  rw [harray.bufSize_eq_byteIndex_len, Nat.add_sub_cancel]

/-! ### Crossing indices -/

/-- Eight elements fill a whole number of bytes, so the shift repeats with period 8. -/
theorem shiftOf_eq_residue (index : Index) (e : Width) : shiftOf index e = index.toNat % 8 * e.toNat % 8 :=
  (Nat.mod_mul_mod _ _ 8).symm

/-- The crossing column of 20_memory.md R50, width by width, for the residues of an index modulo 8. -/
theorem crossing_residue_iff : ∀ (e : Width) (r : Fin 8), 1 ≤ e.toNat → e.toNat ≤ 8 →
    (8 < r.val * e.toNat % 8 + e.toNat ↔
      (e = 3#4 ∧ (r.val = 2 ∨ r.val = 5)) ∨
      (e = 5#4 ∧ (r.val = 1 ∨ r.val = 3 ∨ r.val = 4 ∨ r.val = 6)) ∨
      (e = 6#4 ∧ (r.val % 4 = 1 ∨ r.val % 4 = 2)) ∨
      (e = 7#4 ∧ 1 ≤ r.val ∧ r.val ≤ 6)) := by
  decide

/-- Settles O36: whether an index crosses depends on its residue modulo 8 alone; an element of at most 8 bits that
starts at bit 0 to 7 of its byte reaches at most 7 bits past it. -/
theorem crossingIndexTable : Obligations.CrossingIndexTable := by
  intro index e hpos hle
  constructor
  · have hmod : index.toNat % 8 % 4 = index.toNat % 4 := Nat.mod_mod_of_dvd _ (by decide)
    have htable := crossing_residue_iff e ⟨index.toNat % 8, Nat.mod_lt _ (by decide)⟩ hpos hle
    rwa [hmod, ← shiftOf_eq_residue] at htable
  · intro hcross
    have hshift : shiftOf index e < 8 := shiftOf_lt index e
    omega

/-! ### The host's two lists -/

/-- Every command that completes leaves the further inputs alone and gives one response (20_memory.md R56, R61). -/
theorem exec_answers_once {i : Instr} {s t : State} (h : exec i s = .next t) :
    t.inputs = s.inputs ∧ ∃ r, t.responses = s.responses ++ [r] := by
  cases i with
  | construct w l =>
    obtain ⟨-, rfl⟩ | ⟨-, rfl⟩ := exec_construct_next h <;> exact ⟨rfl, _, rfl⟩
  | set x v =>
    obtain ⟨e, -, rfl⟩ | ⟨-, -, rfl⟩ := exec_set_next h <;> exact ⟨rfl, _, rfl⟩
  | get x =>
    obtain ⟨e, -, rfl⟩ | ⟨-, -, rfl⟩ := exec_get_next h <;> exact ⟨rfl, _, rfl⟩

theorem stepCommand_answers_once {w : Word} {s t : State} (h : stepCommand w s = .next t) :
    t.inputs = s.inputs ∧ ∃ r, t.responses = s.responses ++ [r] := by
  obtain ⟨r, -, rfl⟩ | ⟨i, -, hexec⟩ := stepCommand_next h
  · exact ⟨rfl, _, rfl⟩
  · exact exec_answers_once hexec

/-- Settles O15: an idle block and a reset answer nothing, a command word is answered once. -/
theorem inputsTakenInOrder : Obligations.InputsTakenInOrder := by
  intro s t h
  obtain ⟨hin, rfl⟩ | ⟨rest, hin, rfl⟩ | ⟨w, rest, hin, hcmd⟩ := step_next h
  · exact ⟨by simp [hin], [], by simp⟩
  · exact ⟨by simp [hin], [], by simp⟩
  · obtain ⟨hinputs, r, hresponses⟩ := stepCommand_answers_once hcmd
    exact ⟨by simpa [hin] using hinputs, [r], by simpa using hresponses, le_rfl⟩

/-! ### What changes a byte of the buffer -/

/-- A command that is neither a CONSTRUCT of a legal width nor a SET addressed to byte `a` leaves byte `a` as it was
(20_memory.md R41, R42). -/
theorem exec_keeps_byte {i : Instr} {s t : State} {a : Nat} (h : exec i s = .next t)
    (hconstruct : ∀ w l, i = .construct w l → ¬ legalWidth w)
    (hset : ∀ x v, i = .set x v → byteIndex x s.ebits ≠ a) : readByte a t = readByte a s := by
  cases i with
  | construct w l =>
    obtain ⟨-, rfl⟩ | ⟨hw, -⟩ := exec_construct_next h
    · exact readByte_congr rfl rfl a
    · exact absurd hw (hconstruct w l rfl)
  | set x v =>
    obtain ⟨e, -, rfl⟩ | ⟨-, -, rfl⟩ := exec_set_next h
    · exact readByte_congr rfl rfl a
    · simp [readByte, Memory.get_set_ne (hset x v rfl)]
  | get x =>
    obtain ⟨e, -, rfl⟩ | ⟨-, -, rfl⟩ := exec_get_next h <;> exact readByte_congr rfl rfl a

theorem not_legalWidth_of_refused {e : Width} (h : e = 0#4 ∨ 8 < e.toNat) : ¬ legalWidth e := by
  revert e; decide

/-- Settles O46: a step that waits or answers an illegal word touches no byte, and the hypotheses leave no decoded
command that writes byte `a`. -/
theorem bufferByteChangesOnlyByResetConstructOrItsSet :
    Obligations.BufferByteChangesOnlyByResetConstructOrItsSet := by
  intro s t a h hreset hconstruct hset
  obtain ⟨-, rfl⟩ | ⟨rest, hin, -⟩ | ⟨w, rest, hin, hcmd⟩ := step_next h
  · rfl
  · simp [hin] at hreset
  · have hhead : s.inputs.head? = some (.command w) := by simp [hin]
    have haccept : readByte a (accept rest s) = readByte a s := readByte_congr rfl rfl a
    rw [← haccept]
    obtain ⟨r, -, rfl⟩ | ⟨i, hd, hexec⟩ := stepCommand_next hcmd
    · exact readByte_congr rfl rfl a
    · refine exec_keeps_byte hexec (fun e l hi => ?_) (fun x v hi => ?_)
      · exact not_legalWidth_of_refused (hconstruct w e l hhead (hi ▸ hd))
      · exact hset w x v hhead (hi ▸ hd)

end Sys2Proof.Machine
end

section
/-! PROOFS of the family 30_encoding.md: the decoder by rows of the opcode table and that it inverts the encoder, the
counts of R75, the assembler's operand ranges, and the form of a response word. -/

namespace Sys2Proof

/-! ### The fixed bits of a row, as fields of the word (R73) -/

theorem EncodingRow.fits_iff (r : EncodingRow) (w : Word) : r.fits w = true ↔ w &&& r.mask = r.pattern := beq_iff_eq

theorem extractLsb'_eq_iff_toNat {n : Nat} (w : Word) (start : Nat) (x : BitVec n) :
    w.extractLsb' start n = x ↔ w.toNat / 2 ^ start % 2 ^ n = x.toNat := by
  rw [← BitVec.toNat_inj, BitVec.extractLsb'_toNat, Nat.shiftRight_eq_div_pow]

theorem constructRow_fits_iff_fields (w : Word) : constructRow.fits w = true ↔
    w.extractLsb' 30 2 = 0#2 ∧ w.extractLsb' 28 2 = 0#2 ∧ w.extractLsb' 0 8 = 0#8 := by
  simp only [constructRow_fits_iff, extractLsb'_eq_iff_toNat, BitVec.toNat_ofNat]
  omega

theorem setRow_fits_iff_fields (w : Word) :
    setRow.fits w = true ↔ w.extractLsb' 30 2 = 1#2 ∧ w.extractLsb' 24 6 = 0#6 := by
  simp only [setRow_fits_iff, extractLsb'_eq_iff_toNat, BitVec.toNat_ofNat]
  omega

theorem getRow_fits_iff_fields (w : Word) : getRow.fits w = true ↔
    w.extractLsb' 30 2 = 2#2 ∧ w.extractLsb' 24 6 = 0#6 ∧ w.extractLsb' 0 8 = 0#8 := by
  simp only [getRow_fits_iff, extractLsb'_eq_iff_toNat, BitVec.toNat_ofNat]
  omega

/-- R75: no word fits two rows, so the order in which `decode` tries them does not matter. -/
theorem not_constructRow_fits_of_setRow_fits {w : Word} (h : setRow.fits w = true) : ¬ constructRow.fits w = true := by
  rw [setRow_fits_iff] at h
  rw [constructRow_fits_iff]
  omega

theorem not_other_fits_of_getRow_fits {w : Word} (h : getRow.fits w = true) :
    ¬ constructRow.fits w = true ∧ ¬ setRow.fits w = true := by
  rw [getRow_fits_iff] at h
  rw [constructRow_fits_iff, setRow_fits_iff]
  omega

/-! ### The decoder, row by row -/

theorem decode_of_constructRow_fits {w : Word} (h : constructRow.fits w = true) :
    decode w = .ok (.construct (ebitsField w) (idxField w)) := by
  simp [decode, h]

theorem decode_of_setRow_fits {w : Word} (h : setRow.fits w = true) :
    decode w = .ok (.set (idxField w) (valField w)) := by
  simp [decode, h, not_constructRow_fits_of_setRow_fits h]

theorem decode_of_getRow_fits {w : Word} (h : getRow.fits w = true) : decode w = .ok (.get (idxField w)) := by
  simp [decode, h, not_other_fits_of_getRow_fits h]

theorem decode_of_no_row_fits {w : Word} (hconstruct : ¬ constructRow.fits w = true) (hset : ¬ setRow.fits w = true)
    (hget : ¬ getRow.fits w = true) : ∃ r, decode w = .error r := by
  by_cases hop : opField w = 3#2
  · exact ⟨.reservedOpcode, by simp [decode, hconstruct, hset, hget, hop]⟩
  · exact ⟨.mustBeZeroBitSet, by simp [decode, hconstruct, hset, hget, hop]⟩

/-- What the decoder can answer: a word fits one of the three rows, or none and is illegal. -/
theorem decode_cases (w : Word) :
    (constructRow.fits w = true ∧ decode w = .ok (.construct (ebitsField w) (idxField w))) ∨
    (setRow.fits w = true ∧ decode w = .ok (.set (idxField w) (valField w))) ∨
    (getRow.fits w = true ∧ decode w = .ok (.get (idxField w))) ∨
    ((¬ constructRow.fits w = true ∧ ¬ setRow.fits w = true ∧ ¬ getRow.fits w = true) ∧
      ∃ r, decode w = .error r) := by
  by_cases hconstruct : constructRow.fits w = true
  · exact .inl ⟨hconstruct, decode_of_constructRow_fits hconstruct⟩
  by_cases hset : setRow.fits w = true
  · exact .inr (.inl ⟨hset, decode_of_setRow_fits hset⟩)
  by_cases hget : getRow.fits w = true
  · exact .inr (.inr (.inl ⟨hget, decode_of_getRow_fits hget⟩))
  · exact .inr (.inr (.inr ⟨⟨hconstruct, hset, hget⟩, decode_of_no_row_fits hconstruct hset hget⟩))

/-- What a decoded command says of its word. -/
theorem row_fits_of_decode {w : Word} {i : Instr} (h : decode w = .ok i) : i.row.fits w = true := by
  obtain ⟨hfits, hd⟩ | ⟨hfits, hd⟩ | ⟨hfits, hd⟩ | ⟨-, r, hd⟩ := decode_cases w <;>
    cases hd.symm.trans h <;> exact hfits

theorem decode_eq_construct_iff (w : Word) (e : Width) (l : Index) : decode w = .ok (.construct e l) ↔
    constructRow.fits w = true ∧ e = ebitsField w ∧ l = idxField w := by
  constructor
  · intro h
    have hfits : constructRow.fits w = true := row_fits_of_decode h
    cases (decode_of_constructRow_fits hfits).symm.trans h
    exact ⟨hfits, rfl, rfl⟩
  · rintro ⟨hfits, rfl, rfl⟩
    exact decode_of_constructRow_fits hfits

theorem decode_eq_set_iff (w : Word) (i : Index) (v : Byte) : decode w = .ok (.set i v) ↔
    setRow.fits w = true ∧ i = idxField w ∧ v = valField w := by
  constructor
  · intro h
    have hfits : setRow.fits w = true := row_fits_of_decode h
    cases (decode_of_setRow_fits hfits).symm.trans h
    exact ⟨hfits, rfl, rfl⟩
  · rintro ⟨hfits, rfl, rfl⟩
    exact decode_of_setRow_fits hfits

theorem decode_eq_get_iff (w : Word) (i : Index) : decode w = .ok (.get i) ↔
    getRow.fits w = true ∧ i = idxField w := by
  constructor
  · intro h
    have hfits : getRow.fits w = true := row_fits_of_decode h
    cases (decode_of_getRow_fits hfits).symm.trans h
    exact ⟨hfits, rfl⟩
  · rintro ⟨hfits, rfl⟩
    exact decode_of_getRow_fits hfits

theorem decode_eq_error_iff (w : Word) : (∃ r, decode w = .error r) ↔
    ¬ constructRow.fits w = true ∧ ¬ setRow.fits w = true ∧ ¬ getRow.fits w = true := by
  obtain ⟨hfits, hd⟩ | ⟨hfits, hd⟩ | ⟨hfits, hd⟩ | ⟨hnone, hd⟩ := decode_cases w
  · simp [hd, hfits]
  · simp [hd, hfits]
  · simp [hd, hfits]
  · exact iff_of_true hd hnone

/-! ### The encoder, row by row: a word is a command's exactly when the row fits and the fields are the operands -/

theorem eq_encode_construct_iff (w : Word) (e : Width) (l : Index) : w = encode (.construct e l) ↔
    constructRow.fits w = true ∧ e = ebitsField w ∧ l = idxField w := by
  have he := e.isLt
  have hl := l.isLt
  rw [constructRow_fits_iff, ← BitVec.toNat_inj, ← BitVec.toNat_inj, ← BitVec.toNat_inj, encode_construct_toNat,
    ebitsField_toNat, idxField_toNat]
  omega

theorem eq_encode_set_iff (w : Word) (i : Index) (v : Byte) : w = encode (.set i v) ↔
    setRow.fits w = true ∧ i = idxField w ∧ v = valField w := by
  have hi := i.isLt
  have hv := v.isLt
  rw [setRow_fits_iff, ← BitVec.toNat_inj, ← BitVec.toNat_inj, ← BitVec.toNat_inj, encode_set_toNat,
    idxField_toNat, valField_toNat]
  omega

theorem eq_encode_get_iff (w : Word) (i : Index) : w = encode (.get i) ↔
    getRow.fits w = true ∧ i = idxField w := by
  have hi := i.isLt
  rw [getRow_fits_iff, ← BitVec.toNat_inj, ← BitVec.toNat_inj, encode_get_toNat, idxField_toNat]
  omega

/-! ### Decoding inverts encoding (R76) -/

/-- Both sides say that the command's row fits the word and that its operands are the word's fields. -/
theorem decode_eq_ok_iff (w : Word) (i : Instr) : decode w = .ok i ↔ w = encode i := by
  cases i with
  | construct e l => exact (decode_eq_construct_iff w e l).trans (eq_encode_construct_iff w e l).symm
  | set i v => exact (decode_eq_set_iff w i v).trans (eq_encode_set_iff w i v).symm
  | get i => exact (decode_eq_get_iff w i).trans (eq_encode_get_iff w i).symm

@[simp] theorem decode_encode (i : Instr) : decode (encode i) = .ok i := (decode_eq_ok_iff _ i).2 rfl

theorem encode_injective : Function.Injective encode := by
  intro i j h
  have hdecode : decode (encode i) = .ok j := h ▸ decode_encode j
  exact Except.ok.inj ((decode_encode i).symm.trans hdecode)

/-- Settles O3: `encode` has the left inverse `decode`, and a word that decodes is the word of its command. -/
theorem decodeInvertsEncode : Obligations.DecodeInvertsEncode := by
  refine ⟨decode_eq_ok_iff, fun i j h => encode_injective h, fun w w' i h h' => ?_⟩
  calc w = encode i := (decode_eq_ok_iff w i).1 h
    _ = w' := ((decode_eq_ok_iff w' i).1 h').symm

/-! ### The opcode map and the operand places (R67 to R69, R73 to R75) -/

theorem op_cases : ∀ op : BitVec 2, op = 0#2 ∨ op = 1#2 ∨ op = 2#2 ∨ op = 3#2 := by decide

/-- R74: the words that fit no row, by the value of `op`. -/
theorem decode_eq_error_iff_fields (w : Word) : (∃ r, decode w = .error r) ↔
    w.extractLsb' 30 2 = 3#2 ∨
    (w.extractLsb' 30 2 = 0#2 ∧ (w.extractLsb' 28 2 ≠ 0#2 ∨ w.extractLsb' 0 8 ≠ 0#8)) ∨
    (w.extractLsb' 30 2 = 1#2 ∧ w.extractLsb' 24 6 ≠ 0#6) ∨
    (w.extractLsb' 30 2 = 2#2 ∧ (w.extractLsb' 24 6 ≠ 0#6 ∨ w.extractLsb' 0 8 ≠ 0#8)) := by
  rw [decode_eq_error_iff, constructRow_fits_iff_fields, setRow_fits_iff_fields, getRow_fits_iff_fields]
  obtain hop | hop | hop | hop := op_cases (w.extractLsb' 30 2)
  · simp [hop, ← not_and_or]
  · simp [hop]
  · simp [hop, ← not_and_or]
  · simp [hop]

/-- Settles O4: each command's row of the table read as fields, and the words that fit no row. -/
theorem decoderFollowsOpcodeMap : Obligations.DecoderFollowsOpcodeMap := by
  intro w
  refine ⟨fun e l => ?construct, fun i v => ?set, fun i => ?get, decode_eq_error_iff_fields w⟩
  case construct =>
    rw [decode_eq_construct_iff, constructRow_fits_iff_fields, and_assoc, and_assoc]
    rfl
  case set =>
    rw [decode_eq_set_iff, setRow_fits_iff_fields, and_assoc]
    rfl
  case get =>
    rw [decode_eq_get_iff, getRow_fits_iff_fields, and_assoc, and_assoc]
    rfl

/-- Settles O2: the word of a command fits its row, and its fields are the operands. -/
theorem encodedFieldsStandWhereSaid : Obligations.EncodedFieldsStandWhereSaid := by
  refine ⟨fun e l => ?construct, fun i v => ?set, fun i => ?get⟩
  case construct =>
    obtain ⟨hfits, hebits, hidx⟩ := (eq_encode_construct_iff _ e l).1 rfl
    exact ⟨rfl, (constructRow.fits_iff _).1 hfits, hebits.symm, hidx.symm⟩
  case set =>
    obtain ⟨hfits, hidx, hval⟩ := (eq_encode_set_iff _ i v).1 rfl
    exact ⟨rfl, (setRow.fits_iff _).1 hfits, hidx.symm, hval.symm⟩
  case get =>
    obtain ⟨hfits, hidx⟩ := (eq_encode_get_iff _ i).1 rfl
    exact ⟨rfl, (getRow.fits_iff _).1 hfits, hidx.symm⟩

/-! ### Counting words (R75) -/

theorem natCard_bitVec (n : Nat) : Nat.card (BitVec n) = 2 ^ n :=
  Nat.card_eq_of_equiv_fin BitVec.equivFin.toEquiv

/-- There are as many words that decode to a command of a family as there are commands in it. -/
theorem natCard_decoded {α : Type} {f : α → Instr} (hf : Function.Injective f) :
    Nat.card { w : Word // ∃ a, decode w = .ok (f a) } = Nat.card α := by
  have hrange : ∀ w : Word, (∃ a, decode w = .ok (f a)) ↔ w ∈ Set.range (encode ∘ f) :=
    fun w => exists_congr fun a => (decode_eq_ok_iff w (f a)).trans eq_comm
  rw [Nat.card_congr (Equiv.subtypeEquivRight hrange)]
  exact Nat.card_range_of_injective (encode_injective.comp hf)

/-- A command is a constructor with its operands. -/
def instrEquiv : (Width × Index) ⊕ (Index × Byte) ⊕ Index ≃ Instr where
  toFun
    | .inl (e, l) => .construct e l
    | .inr (.inl (i, v)) => .set i v
    | .inr (.inr i) => .get i
  invFun
    | .construct e l => .inl (e, l)
    | .set i v => .inr (.inl (i, v))
    | .get i => .inr (.inr i)
  left_inv x := by obtain _ | _ | _ := x <;> rfl
  right_inv i := by cases i <;> rfl

theorem natCard_construct_words :
    Nat.card { w : Word // ∃ e l, decode w = .ok (.construct e l) } = 2 ^ 20 := by
  have hinj : Function.Injective fun p : Width × Index => Instr.construct p.1 p.2 :=
    instrEquiv.injective.comp Sum.inl_injective
  have h := natCard_decoded hinj
  simpa only [Prod.exists, Nat.card_prod, natCard_bitVec, ← pow_add, Nat.reduceAdd] using h

theorem natCard_set_words : Nat.card { w : Word // ∃ i v, decode w = .ok (.set i v) } = 2 ^ 24 := by
  have hinj : Function.Injective fun p : Index × Byte => Instr.set p.1 p.2 :=
    instrEquiv.injective.comp (Sum.inr_injective.comp Sum.inl_injective)
  have h := natCard_decoded hinj
  simpa only [Prod.exists, Nat.card_prod, natCard_bitVec, ← pow_add, Nat.reduceAdd] using h

theorem natCard_get_words : Nat.card { w : Word // ∃ i, decode w = .ok (.get i) } = 2 ^ 16 := by
  have hinj : Function.Injective Instr.get := instrEquiv.injective.comp (Sum.inr_injective.comp Sum.inr_injective)
  rw [natCard_decoded hinj, natCard_bitVec]

theorem natCard_instr : Nat.card Instr = 2 ^ 24 + 2 ^ 20 + 2 ^ 16 := by
  rw [← Nat.card_congr instrEquiv, Nat.card_sum, Nat.card_sum, Nat.card_prod, Nat.card_prod]
  simp only [natCard_bitVec]
  rfl

theorem decode_ok_iff_not_error (w : Word) : (∃ i, decode w = .ok i) ↔ ¬ ∃ r, decode w = .error r := by
  cases decode w <;> simp

/-- Every word is illegal or the word of one command. -/
theorem natCard_illegal_words_add_instr :
    Nat.card { w : Word // ∃ r, decode w = .error r } + Nat.card Instr = 2 ^ 32 := by
  classical
  calc _ = Nat.card { w : Word // ∃ r, decode w = .error r } + Nat.card { w : Word // ∃ i, decode w = .ok i } := by
        rw [← natCard_decoded (f := id) Function.injective_id]
        rfl
    _ = Nat.card { w : Word // ∃ r, decode w = .error r } + Nat.card { w : Word // ¬ ∃ r, decode w = .error r } := by
        rw [Nat.card_congr (Equiv.subtypeEquivRight decode_ok_iff_not_error)]
    _ = Nat.card Word := by
        rw [← Nat.card_sum]
        exact Nat.card_congr (Equiv.sumCompl _)
    _ = 2 ^ 32 := natCard_bitVec 32

/-- Settles O5: each family has as many words as operands, and the illegal words are all the others. -/
theorem commandWordCounts : Obligations.CommandWordCounts := by
  refine ⟨natCard_construct_words, natCard_set_words, natCard_get_words, ?_⟩
  calc _ = 2 ^ 32 - Nat.card Instr := Nat.eq_sub_of_add_eq natCard_illegal_words_add_instr
    _ = 2 ^ 32 - 2 ^ 24 - 2 ^ 20 - 2 ^ 16 := by rw [natCard_instr, Nat.sub_add_eq, Nat.sub_add_eq]

/-! ### The assembler of one line (R77) -/

/-- A line has a word exactly when its operands are in range. -/
theorem AsmLine.assemble_isSome_iff (l : AsmLine) : l.assemble.isSome ↔ l.wellFormed = true := by
  cases l <;> simp [AsmLine.assemble, Option.isSome_ite]

theorem AsmLine.assemble_eq_encode {l : AsmLine} {i : Instr} (hi : l.instr = some i) (hwf : l.wellFormed = true) :
    l.assemble = some (encode i) := by
  cases l with
  | word n => cases hi
  | construct e l | set x v | get x =>
    cases hi
    exact if_pos hwf

/-- The word of a line that names a command decodes to that command. -/
theorem AsmLine.decode_of_assemble {l : AsmLine} {i : Instr} {w : Word} (hi : l.instr = some i)
    (hw : l.assemble = some w) : l.wellFormed = true ∧ decode w = .ok i := by
  have hwf : l.wellFormed = true := l.assemble_isSome_iff.1 (by simp [hw])
  have hword : encode i = w := Option.some.inj ((assemble_eq_encode hi hwf).symm.trans hw)
  exact ⟨hwf, hword ▸ decode_encode i⟩

theorem AsmLine.assemble_word {n : Nat} (hn : n < 2 ^ 32) :
    (AsmLine.word n).assemble = some (BitVec.ofNat 32 n) :=
  if_pos (decide_eq_true hn)

/-- The ranges of R77 are those of the operands' fields. -/
theorem AsmLine.wellFormed_construct_iff (e l : Nat) :
    (AsmLine.construct e l).wellFormed = true ↔ e ≤ 15 ∧ l ≤ 65535 := by
  simp [AsmLine.wellFormed]

theorem AsmLine.wellFormed_set_iff (i v : Nat) :
    (AsmLine.set i v).wellFormed = true ↔ i ≤ 65535 ∧ v ≤ 255 := by
  simp [AsmLine.wellFormed]

theorem AsmLine.wellFormed_get_iff (i : Nat) : (AsmLine.get i).wellFormed = true ↔ i ≤ 65535 := by
  simp [AsmLine.wellFormed]

theorem AsmLine.wellFormed_word_iff (n : Nat) : (AsmLine.word n).wellFormed = true ↔ n < 2 ^ 32 := by
  simp [AsmLine.wellFormed]

/-- Settles O6: an operand in the range of R77 is not changed by the cut to its field. -/
theorem assemblyOperandRanges : Obligations.AssemblyOperandRanges := by
  refine ⟨fun e l => ?construct, fun i v => ?set, fun i => ?get, fun n => ?word⟩
  case construct =>
    refine ⟨(AsmLine.assemble_isSome_iff _).trans (AsmLine.wellFormed_construct_iff e l), fun w hw => ?_⟩
    obtain ⟨hwf, hd⟩ := AsmLine.decode_of_assemble rfl hw
    obtain ⟨he, hl⟩ := (AsmLine.wellFormed_construct_iff e l).1 hwf
    exact ⟨_, _, hd, Nat.mod_eq_of_lt (by omega), Nat.mod_eq_of_lt (by omega)⟩
  case set =>
    refine ⟨(AsmLine.assemble_isSome_iff _).trans (AsmLine.wellFormed_set_iff i v), fun w hw => ?_⟩
    obtain ⟨hwf, hd⟩ := AsmLine.decode_of_assemble rfl hw
    obtain ⟨hi, hv⟩ := (AsmLine.wellFormed_set_iff i v).1 hwf
    exact ⟨_, _, hd, Nat.mod_eq_of_lt (by omega), Nat.mod_eq_of_lt (by omega)⟩
  case get =>
    refine ⟨(AsmLine.assemble_isSome_iff _).trans (AsmLine.wellFormed_get_iff i), fun w hw => ?_⟩
    obtain ⟨hwf, hd⟩ := AsmLine.decode_of_assemble rfl hw
    have hi : i ≤ 65535 := (AsmLine.wellFormed_get_iff i).1 hwf
    exact ⟨_, hd, Nat.mod_eq_of_lt (by omega)⟩
  case word =>
    have hsome := (AsmLine.assemble_isSome_iff _).trans (AsmLine.wellFormed_word_iff n)
    refine ⟨hsome, fun w hw => ?_⟩
    have hn : n < 2 ^ 32 := hsome.1 (by simp [hw])
    rw [AsmLine.assemble_word hn] at hw
    cases hw
    exact Nat.mod_eq_of_lt hn

end Sys2Proof

namespace Sys2Proof.Machine

/-! ### Response words (R70) -/

/-- The five codes of 60_exceptions.md R131. -/
theorem statusCode_le (st : Status) : (statusCode st).toNat ≤ 4 := by cases st <;> decide

@[simp] theorem rspStatus_responseWord (st : Status) (d : Byte) : rspStatus (responseWord st d) = statusCode st :=
  BitVec.extractLsb'_append_eq_left

@[simp] theorem rspData_responseWord (st : Status) (d : Byte) : rspData (responseWord st d) = d :=
  BitVec.extractLsb'_append_eq_right

/-- A command that completes gives one response, and only a GET answered `OK` puts data into it. -/
theorem exec_response {i : Instr} {s t : State} (h : exec i s = .next t) :
    ∃ st d, t.responses = s.responses ++ [responseWord st d] ∧ (d ≠ 0#8 → st = .ok ∧ ∃ x, i = .get x) := by
  cases i with
  | construct w l =>
    obtain ⟨-, rfl⟩ | ⟨-, rfl⟩ := exec_construct_next h <;> exact ⟨_, 0#8, rfl, absurd rfl⟩
  | set x v =>
    obtain ⟨e, -, rfl⟩ | ⟨-, -, rfl⟩ := exec_set_next h <;> exact ⟨_, 0#8, rfl, absurd rfl⟩
  | get x =>
    obtain ⟨e, -, rfl⟩ | ⟨-, -, rfl⟩ := exec_get_next h
    · exact ⟨_, 0#8, rfl, absurd rfl⟩
    · exact ⟨.ok, _, rfl, fun _ => ⟨rfl, x, rfl⟩⟩

theorem stepCommand_response {w : Word} {s t : State} (h : stepCommand w s = .next t) :
    ∃ st d, t.responses = s.responses ++ [responseWord st d] ∧
      (d ≠ 0#8 → st = .ok ∧ ∃ x, decode w = .ok (.get x)) := by
  obtain ⟨r, -, rfl⟩ | ⟨i, hd, hexec⟩ := stepCommand_next h
  · exact ⟨_, 0#8, rfl, absurd rfl⟩
  · obtain ⟨st, d, hresponses, hdata⟩ := exec_response hexec
    refine ⟨st, d, hresponses, fun hne => ?_⟩
    obtain ⟨hok, x, rfl⟩ := hdata hne
    exact ⟨hok, x, hd⟩

/-- Settles O40: the response is a status with its code of R131, and data as `stepCommand_response` says. -/
theorem responsesAreWellFormed : Obligations.ResponsesAreWellFormed := by
  intro s t w rest hin h
  rw [step_command hin] at h
  obtain ⟨st, d, hresponses, hdata⟩ := stepCommand_response h
  refine ⟨responseWord st d, hresponses, ?_, fun hne => ?_⟩
  · simpa using statusCode_le st
  · rw [rspData_responseWord] at hne
    obtain ⟨rfl, hget⟩ := hdata hne
    exact ⟨rspStatus_responseWord .ok d, hget⟩

/-! ### The worked encodings (R78) -/

/-- R74: an illegal width is not an illegal word; it decodes and is answered `InvalidConfiguration`. -/
theorem stepCommand_refused_width {w : Word} {e : Width} {l : Index} (hd : decode w = .ok (.construct e l))
    (he : ¬ legalWidth e) (s : State) :
    stepCommand w s = .next { s with responses := s.responses ++ [0x200#11] } := by
  rw [stepCommand_decoded hd, exec_construct_illegal he]
  rfl

/-- Settles O1: text and word are evaluated row by row, and the two widths 9 and 0 are refused. -/
theorem workedEncodings : Obligations.WorkedEncodings := by
  have hnine : decode 0x09000500#32 = .ok (.construct 9#4 5#16) := by decide
  have hzero : decode 0#32 = .ok (.construct 0#4 0#16) := by decide
  have hnineRefused := stepCommand_refused_width hnine (by decide)
  have hzeroRefused := stepCommand_refused_width hzero (by decide)
  exact ⟨by decide, by decide, ⟨by decide, hnine, hnineRefused⟩, by decide, by decide, by decide, by decide,
    ⟨by decide, _, rfl⟩, ⟨by decide, _, rfl⟩, ⟨by decide, _, rfl⟩, ⟨by decide, _, rfl⟩,
    by decide, by decide, hzero, hzeroRefused⟩

end Sys2Proof.Machine
end

section
/-! PROOFS of the family 40_construct.md: the state CONSTRUCT leaves, what it leaves unchanged, and that a new array does
not depend on the old state. -/

namespace Sys2Proof.Machine

/-! ### The bytes a response leaves as they were, and those of a new array -/

@[simp] theorem readByte_respond (a : Nat) (st : Status) (d : Byte) (s : State) :
    readByte a (respond st d s) = readByte a s :=
  readByte_congr rfl rfl a

@[simp] theorem readByte_raise (a : Nat) (e : Error) (s : State) : readByte a (raise e s) = readByte a s :=
  readByte_respond a _ _ s

/-- 40_construct.md R93, by address: the last byte of the new buffer is that of the slack index `length`. -/
theorem readByte_newArray_legal {w : Width} (hw : legalWidth w) (l : Index) (s : State) (a : Nat) :
    readByte a (newArray w l s) = if a ≤ l.toNat * w.toNat / 8 then some 0#8 else none := by
  rw [readByte_newArray, bufSizeOf_toNat hw.2]
  simp only [Nat.lt_succ_iff]

/-- R94: a new array is the old state's in nothing but the host's two lists. -/
theorem newArray_eq_newArray (w : Width) (l : Index) (s s' : State) :
    newArray w l s' = { newArray w l s with inputs := s'.inputs, responses := s'.responses } := rfl

/-! ### The obligations -/

/-- Settles O16: a refused width is not legal; for a legal one the registers are those of `ArrayInv`, and the buffer has
exactly the bytes below `BUFSIZE`, none of them listed. -/
theorem constructMakesNewArray : Obligations.ConstructMakesNewArray := by
  intro ebits length s
  refine ⟨rfl, fun hrefused => ?refused, fun hpos hle => ?legal⟩
  case refused => exact exec_construct_illegal (not_legalWidth_of_refused hrefused) length s
  case legal =>
    have hlegal : legalWidth ebits := (legalWidth_iff ebits).2 ⟨hpos, hle⟩
    have harray : ArrayInv (newArray ebits length s) := arrayInv_newArray hlegal length s
    exact ⟨respond .ok 0#8 (newArray ebits length s), exec_construct_legal hlegal length s,
      rfl, rfl, rfl, harray.setMask_eq, harray.getMask_eq, harray.bufSize_eq,
      fun a ha => (readByte_eq_some_iff a _ _).2 ⟨ha, rfl⟩, fun a ha => (readByte_eq_none_iff a _).2 ha, rfl, rfl⟩

/-- Settles O44: the host's lists are as after every command; the rest is the refused or the legal case of CONSTRUCT. -/
theorem constructFrame : Obligations.ConstructFrame := by
  intro ebits length s t h
  obtain ⟨hinputs, hresponse⟩ := exec_answers_once h
  refine ⟨hinputs, hresponse, ?_⟩
  obtain ⟨hillegal, rfl⟩ | ⟨hlegal, rfl⟩ := exec_construct_next h
  · exact ⟨fun _ => ⟨rfl, fun a => readByte_raise a _ s⟩, fun hlegal => absurd hlegal hillegal⟩
  · refine ⟨fun hillegal => absurd hlegal hillegal, fun _ a => ?_⟩
    rw [readByte_respond, readByte_newArray_legal hlegal]

/-- Settles O17: both commands make their new array, and `newArray_eq_newArray` compares the two. -/
theorem newArrayForgetsOld : Obligations.NewArrayForgetsOld := by
  intro ebits length s s' hpos hle
  have hlegal : legalWidth ebits := (legalWidth_iff ebits).2 ⟨hpos, hle⟩
  exact ⟨_, _, exec_construct_legal hlegal length s, exec_construct_legal hlegal length s',
    congrArg (respond .ok 0#8) (newArray_eq_newArray ebits length s s')⟩

end Sys2Proof.Machine
end

section
/-! PROOFS of the family 41_set.md: the state an accepted SET leaves, that state as a bitstream, and what follows from
it: which bits a SET writes, that SETs of one index overwrite and SETs of two indices commute, SET's footprint and its
frame. -/

namespace Sys2Proof.Machine

/-! ### The state an accepted SET leaves -/

/-- The effect of 41_set.md R100 once both tests are passed and byte `b` exists: that byte is rewritten and the response
is (`OK`, 0). `exec_set_eq_setElement` ties it to the meaning of SET. -/
def setElement (i : Index) (v : Byte) (s : State) : State :=
  respond .ok 0#8 { s with
    buf := Memory.set s.buf (byteIndex i s.ebits)
      (insertBits (Memory.get s.buf (byteIndex i s.ebits)) v s.setMask (shiftOf i s.ebits)) }

@[simp] theorem setElement_ebits (i : Index) (v : Byte) (s : State) : (setElement i v s).ebits = s.ebits := rfl

@[simp] theorem setElement_responses (i : Index) (v : Byte) (s : State) :
    (setElement i v s).responses = s.responses ++ [0x000#11] := rfl

theorem readByte_of_lt {a : Nat} {s : State} (ha : a < s.bufSize.toNat) : readByte a s = some (Memory.get s.buf a) :=
  if_pos ha

theorem writeByte_of_lt {a : Nat} {s : State} (ha : a < s.bufSize.toNat) (v : Byte) :
    writeByte a v s = some { s with buf := Memory.set s.buf a v } :=
  if_pos ha

theorem exec_set_eq_setElement {i : Index} {s : State} (ha : Admits s i)
    (hbyte : byteIndex i s.ebits < s.bufSize.toNat) (v : Byte) :
    exec (.set i v) s = .next (setElement i v s) :=
  exec_set_ok ((accessError_eq_none_iff i s).2 ha) (readByte_of_lt hbyte) (writeByte_of_lt hbyte _)

theorem StateInv.byteIndex_lt {s : State} (hs : StateInv s) {i : Index} (ha : Admits s i) :
    byteIndex i s.ebits < s.bufSize.toNat :=
  (hs.array ha.1).byteIndex_lt ha.2

/-- Under the invariant an admitted SET completes (20_memory.md R52). -/
theorem exec_set_admitted {i : Index} {s : State} (hs : StateInv s) (ha : Admits s i) (v : Byte) :
    exec (.set i v) s = .next (setElement i v s) :=
  exec_set_eq_setElement ha (hs.byteIndex_lt ha) v

theorem StateInv.setElement {i : Index} {s : State} (hs : StateInv s) (ha : Admits s i) (v : Byte) :
    StateInv (setElement i v s) :=
  exec_keeps_stateInv hs (exec_set_admitted hs ha v)

/-! ### Its bytes -/

theorem readByte_setElement_same {i : Index} {old : Byte} {s : State} (hwf : Memory.wf s.buf = true)
    (hr : readByte (byteIndex i s.ebits) s = some old) (v : Byte) :
    readByte (byteIndex i s.ebits) (setElement i v s) = some (insertBits old v s.setMask (shiftOf i s.ebits)) := by
  obtain ⟨hbyte, rfl⟩ := (readByte_eq_some_iff _ _ _).1 hr
  rw [setElement, readByte_respond, readByte_writeByte hwf (writeByte_of_lt hbyte _), if_pos rfl]

theorem readByte_setElement_ne {i : Index} {s : State} {a : Nat} (h : byteIndex i s.ebits ≠ a) (v : Byte) :
    readByte a (setElement i v s) = readByte a s := by
  simp [setElement, readByte, Memory.get_set_ne h]

/-- Settles O21: the refusals are the two tests of R100 in their order; past them the state is `setElement`. -/
theorem setFollowsAlgorithm : Obligations.SetFollowsAlgorithm := by
  intro index value s
  refine ⟨rfl, fun hc => ?notConstructed, fun hc hi => ?outOfRange, fun hs hc hi => ?completes⟩
  case notConstructed => exact exec_set_error (accessError_of_not_constructed hc index) value
  case outOfRange => exact exec_set_error (accessError_of_beyond hc hi) value
  case completes =>
    have hr := readByte_of_lt (hs.byteIndex_lt ⟨hc, hi⟩)
    exact ⟨_, setElement index value s, hr, exec_set_admitted hs ⟨hc, hi⟩ value,
      readByte_setElement_same hs.mem_wf hr value, fun a ha => readByte_setElement_ne ha.symm value, rfl⟩

/-! ### The frame and the footprint of SET (R101) -/

/-- Settles O42: a completed SET was refused with an error, or it left `setElement`. -/
theorem setFrame : Obligations.SetFrame := by
  intro index value s t h
  refine ⟨(exec_answers_once h).2, ?_⟩
  obtain ⟨e, -, rfl⟩ | ⟨hnone, -, rfl⟩ := exec_set_next h
  · exact ⟨rfl, fun _ _ a _ => readByte_raise a e s, fun _ a => readByte_raise a e s⟩
  · refine ⟨rfl, ?_, fun hrefused => absurd ((accessError_eq_none_iff index s).1 hnone) hrefused⟩
    rintro _ rfl a ha
    exact readByte_setElement_ne ha.symm value

/-- The two tests read `CONSTRUCTED` and `LEN` only. -/
theorem accessError_congr {s s' : State} (hc : s'.constructed = s.constructed) (hl : s'.len = s.len) (i : Index) :
    accessError i s' = accessError i s := by
  rw [accessError, accessError, hc, hl]

/-- Settles O27: both states fail the same test, or both compute the new byte from the same old byte and registers. -/
theorem setFootprint : Obligations.SetFootprint := by
  intro index value s s' t hwf hwf' hc hl he hm hbyte h
  have haccess : accessError index s' = accessError index s := accessError_congr hc hl index
  obtain ⟨e, herror, rfl⟩ | ⟨hnone, hlt, rfl⟩ := exec_set_next h
  · refine ⟨raise e s', _, exec_set_error (haccess.trans herror) value, rfl, rfl, fun hadmits => ?_⟩
    rw [(accessError_eq_none_iff index s).2 hadmits] at herror
    cases herror
  · have hadmits : Admits s index := (accessError_eq_none_iff index s).1 hnone
    have hadmits' : Admits s' index := (accessError_eq_none_iff index s').1 (haccess.trans hnone)
    have hr := readByte_of_lt hlt
    have hr' := (hbyte hadmits).trans hr
    rw [← he] at hr'
    refine ⟨setElement index value s', 0x000#11,
      exec_set_eq_setElement hadmits' ((readByte_eq_some_iff _ _ _).1 hr').1 value, rfl, rfl, fun _ => ?_⟩
    have hnew := readByte_setElement_same hwf hr value
    have hnew' := readByte_setElement_same hwf' hr' value
    rw [he, hm] at hnew'
    exact hnew'.trans hnew.symm

/-! ### The inserter, bit by bit (R103, R104) -/

/-- Positions count from the top of the byte, as in the bitstream (20_memory.md R43). -/
theorem getMsbD_insertBits (old v m : Byte) (n : Nat) {q : Nat} (hq : q < 8) :
    (insertBits old v m n).getMsbD q =
      if n ≤ q ∧ m.getMsbD (q - n) = true then v.getMsbD (q - n) else old.getMsbD q := by
  by_cases hn : n ≤ q
  · cases hm : m.getMsbD (q - n) <;> simp [insertBits, hq, hm, hn, Nat.not_lt.2 hn]
  · simp [insertBits, hq, hn, Nat.not_le.1 hn]

/-- 10_state.md R24: the `EBITS` top bits of `SETMASK` are ones, the others zeros. -/
theorem getMsbD_setMaskOf : ∀ e : Width, legalWidth e → ∀ q, q < 8 →
    (setMaskOf e).getMsbD q = decide (q < e.toNat) := by
  decide

theorem ArrayInv.getMsbD_setMask {s : State} (h : ArrayInv s) {q : Nat} (hq : q < 8) :
    s.setMask.getMsbD q = decide (q < s.ebits.toNat) := by
  have hlegal : legalWidth s.ebits := (legalWidth_iff _).2 ⟨h.ebits_pos, h.ebits_le⟩
  have hmask : s.setMask = setMaskOf s.ebits :=
    BitVec.eq_of_toNat_eq (h.setMask_eq.trans (setMaskOf_toNat hlegal).symm)
  rw [hmask, getMsbD_setMaskOf _ hlegal q hq]

/-- Settles O26: the mask has 8 bits, so what it selects from `V` it selects from `V mod 256`, shifted or not. -/
theorem wideValuesTruncate : Obligations.WideValuesTruncate := by
  intro V old setMask s
  have hselect : V % 2 ^ 8 &&& setMask.toNat = V &&& setMask.toNat := by
    have hlow : (V &&& setMask.toNat) % 2 ^ 8 = V &&& setMask.toNat :=
      Nat.mod_eq_of_lt (Nat.and_lt_two_pow V setMask.isLt)
    rw [Nat.and_mod_two_pow, Nat.mod_eq_of_lt setMask.isLt] at hlow
    exact hlow
  have hstored : (V % 2 ^ 8) >>> s &&& setMask.toNat >>> s = V >>> s &&& setMask.toNat >>> s := by
    rw [← Nat.shiftRight_and_distrib, ← Nat.shiftRight_and_distrib, hselect]
  simp only [insertBits, BitVec.toNat_or, BitVec.toNat_and, BitVec.toNat_not, BitVec.toNat_ushiftRight,
    BitVec.toNat_ofNat, hstored]

/-! ### The bitstream after a SET (R105, R107) -/

/-- The bits SET stores: those of the span that lie in byte `b`. -/
theorem bitAt_setElement {i : Index} {s : State} (hs : StateInv s) (ha : Admits s i) (v : Byte) (p : Nat) :
    bitAt p (setElement i v s) =
      if p / 8 = byteIndex i s.ebits ∧ inSpan i s.ebits p then some (v.getMsbD (p - bitOffset i s.ebits))
      else bitAt p s := by
  by_cases hp : p / 8 = byteIndex i s.ebits
  · have hr := readByte_of_lt (hs.byteIndex_lt ha)
    have hoffset := bitOffset_eq i s.ebits
    have hin : (shiftOf i s.ebits ≤ p % 8 ∧ s.setMask.getMsbD (p % 8 - shiftOf i s.ebits) = true) ↔
        inSpan i s.ebits p := by
      rw [(hs.array ha.1).getMsbD_setMask (by omega), decide_eq_true_iff]
      unfold inSpan
      omega
    have hpos : p % 8 - shiftOf i s.ebits = p - bitOffset i s.ebits := by omega
    rw [bitAt, bitAt, hp, readByte_setElement_same hs.mem_wf hr, hr, Option.map_some, Option.map_some,
      getMsbD_insertBits _ _ _ _ (by omega)]
    simp only [hin]
    simp only [hpos, true_and, apply_ite some]
  · rw [if_neg (fun h => hp h.1), bitAt, bitAt, readByte_setElement_ne (Ne.symm hp)]

/-- Settles O22: the state SET leaves is `setElement`, whose bits `bitAt_setElement` gives. -/
theorem setWritesItsSpanInOneByte : Obligations.SetWritesItsSpanInOneByte := by
  intro index value s hs hc hi
  exact ⟨_, exec_set_admitted hs ⟨hc, hi⟩ value, bitAt_setElement hs ⟨hc, hi⟩ value⟩

/-- 20_memory.md R49: a position in the span of an element determines the element. -/
theorem index_eq_of_inSpan {i j : Index} {e : Width} {p : Nat} (hi : inSpan i e p) (hj : inSpan j e p) : i = j := by
  have hdiv {k : Index} (hk : inSpan k e p) : p / e.toNat = k.toNat :=
    Nat.div_eq_of_lt_le hk.1 (by rw [Nat.succ_mul]; exact hk.2)
  exact BitVec.eq_of_toNat_eq ((hdiv hi).symm.trans (hdiv hj))

/-- Settles O23: SET writes only into its own span, and a position of another span is not in it (R108). -/
theorem setLeavesOtherElements : Obligations.SetLeavesOtherElements := by
  intro index other value s hs hc hi hne
  refine ⟨_, exec_set_admitted hs ⟨hc, hi⟩ value, fun p hother => ?_⟩
  rw [bitAt_setElement hs ⟨hc, hi⟩, if_neg]
  rintro ⟨-, hown⟩
  exact hne (index_eq_of_inSpan hother hown)

/-! ### Registers, host's lists and bitstream determine the state -/

theorem bitAt_of_byte (a : Nat) {q : Nat} (hq : q < 8) (s : State) :
    bitAt (8 * a + q) s = (readByte a s).map (fun v => v.getMsbD q) := by
  have hdiv : (8 * a + q) / 8 = a := by omega
  have hmod : (8 * a + q) % 8 = q := by omega
  rw [bitAt, hdiv, hmod]

theorem readByte_eq_of_bitAt_eq {s t : State} (h : ∀ p, bitAt p t = bitAt p s) (a : Nat) :
    readByte a t = readByte a s := by
  have hbits (q : Nat) (hq : q < 8) :
      (readByte a t).map (fun v => v.getMsbD q) = (readByte a s).map (fun v => v.getMsbD q) := by
    rw [← bitAt_of_byte a hq, ← bitAt_of_byte a hq, h]
  match readByte a t, readByte a s, hbits with
  | none, none, _ => rfl
  | none, some _, h => cases h 0 (by decide)
  | some _, none, h => cases h 0 (by decide)
  | some _, some _, h => exact congrArg some (BitVec.eq_of_getMsbD_eq fun q hq => Option.some.inj (h q hq))

/-- What R33 (e) and the canonical form are for: no cell can hide a byte past the buffer. -/
theorem buf_eq_of_readByte_eq {s t : State} (hs : StateInv s) (ht : StateInv t) (hc : s.constructed = true)
    (hr : SameRegisters s t) (h : ∀ a, readByte a t = readByte a s) : t.buf = s.buf := by
  refine Memory.wf_ext ht.mem_wf hs.mem_wf fun a => ?_
  by_cases ha : a < s.bufSize.toNat
  · have hread : readByte a t = some (Memory.get s.buf a) := (h a).trans (readByte_of_lt ha)
    exact ((readByte_eq_some_iff _ _ _).1 hread).2.symm
  · have ht' : t.bufSize.toNat ≤ a := hr.bufSize ▸ Nat.not_lt.1 ha
    rw [Memory.get_of_below ht' (ht.array (hr.constructed.trans hc)).buf_below,
      Memory.get_of_below (Nat.not_lt.1 ha) (hs.array hc).buf_below]

theorem eq_of_bitAt_eq {s t : State} (hs : StateInv s) (ht : StateInv t) (hc : s.constructed = true)
    (hr : SameRegisters s t) (hin : t.inputs = s.inputs) (hout : t.responses = s.responses)
    (h : ∀ p, bitAt p t = bitAt p s) : t = s := by
  have hbuf : t.buf = s.buf := buf_eq_of_readByte_eq hs ht hc hr (readByte_eq_of_bitAt_eq h)
  cases s
  cases t
  rw [State.mk.injEq]
  exact ⟨hr.constructed, hr.ebits, hr.len, hr.setMask, hr.getMask, hr.bufSize, hbuf, hin, hout⟩

/-! ### Two SETs -/

/-- The second SET writes the very positions the first wrote. -/
theorem setElement_setElement_same {i : Index} {s : State} (hs : StateInv s) (ha : Admits s i) (v v' : Byte) :
    setElement i v' (setElement i v s) =
      { setElement i v' s with responses := s.responses ++ [0x000#11, 0x000#11] } := by
  have hfirst : StateInv (setElement i v s) := hs.setElement ha v
  have hsecond : StateInv (setElement i v' s) := hs.setElement ha v'
  refine eq_of_bitAt_eq (hsecond.of_sameRegisters ⟨rfl, rfl, rfl, rfl, rfl, rfl⟩ rfl) (hfirst.setElement ha v') ha.1
    ⟨rfl, rfl, rfl, rfl, rfl, rfl⟩ rfl (by simp) fun p => ?_
  change _ = bitAt p (setElement i v' s)
  rw [bitAt_setElement hfirst ha, bitAt_setElement hs ha, bitAt_setElement hs ha, setElement_ebits]
  by_cases hwritten : p / 8 = byteIndex i s.ebits ∧ inSpan i s.ebits p
  · rw [if_pos hwritten, if_pos hwritten]
  · simp only [if_neg hwritten]

/-- The positions the two SETs write lie in different spans. -/
theorem setElement_comm {i j : Index} {s : State} (hs : StateInv s) (hi : Admits s i) (hj : Admits s j) (hne : i ≠ j)
    (v v' : Byte) : setElement i v (setElement j v' s) = setElement j v' (setElement i v s) := by
  have hsi : StateInv (setElement i v s) := hs.setElement hi v
  have hsj : StateInv (setElement j v' s) := hs.setElement hj v'
  refine eq_of_bitAt_eq (hsi.setElement hj v') (hsj.setElement hi v) hi.1 ⟨rfl, rfl, rfl, rfl, rfl, rfl⟩ rfl rfl
    fun p => ?_
  rw [bitAt_setElement hsi hj, bitAt_setElement hs hi, bitAt_setElement hsj hi, bitAt_setElement hs hj,
    setElement_ebits, setElement_ebits]
  by_cases hp : inSpan i s.ebits p
  · have hother : ¬ inSpan j s.ebits p := fun hpj => hne (index_eq_of_inSpan hp hpj)
    simp only [hother, and_false, if_false]
  · simp only [hp, and_false, if_false]

/-- Settles O24: R109 for the states SET leaves is `setElement_setElement_same`. -/
theorem laterSetWins : Obligations.LaterSetWins := by
  intro index value value' s hs hc hi
  have ha : Admits s index := ⟨hc, hi⟩
  refine ⟨_, _, exec_set_admitted hs ha value, exec_set_admitted hs ha value', ?_⟩
  rw [exec_set_admitted (hs.setElement ha value) ha, setElement_setElement_same hs ha]

/-- Settles O25: R110 for the states SET leaves is `setElement_comm`. -/
theorem setsOfDifferentIndicesCommute : Obligations.SetsOfDifferentIndicesCommute := by
  intro i j v v' s hs hc hi hj hne
  have hai : Admits s i := ⟨hc, hi⟩
  have haj : Admits s j := ⟨hc, hj⟩
  refine ⟨_, _, _, exec_set_admitted hs hai v, exec_set_admitted hs haj v',
    exec_set_admitted (hs.setElement hai v) haj v', ?_⟩
  rw [exec_set_admitted (hs.setElement haj v') hai, setElement_comm hs hai haj hne]

end Sys2Proof.Machine
end

section
/-! PROOFS of the family 42_get.md: GET as a function of the bitstream, its frame and its footprint; a run of command words
as a relation between states, what such a run keeps, and the round trips through SET and GET. -/

namespace Sys2Proof.Machine

/-! ### The frame and the footprint of GET (R116) -/

/-- Settles O43: a completed GET was refused with an error or answered `OK`, and a response is all that either adds. -/
theorem getFrame : Obligations.GetFrame := by
  intro index s t h
  refine ⟨(exec_answers_once h).2, ?_⟩
  obtain ⟨e, -, rfl⟩ | ⟨-, -, rfl⟩ := exec_get_next h
  · exact ⟨rfl, fun a => readByte_raise a e s⟩
  · exact ⟨rfl, fun a => readByte_respond a _ _ s⟩

/-- Settles O31: both states fail the same test, or both extract the data from the same byte by the same registers. -/
theorem getFootprint : Obligations.GetFootprint := by
  intro index s s' t hc hl he hm hbyte h
  have haccess : accessError index s' = accessError index s := accessError_congr hc hl index
  obtain ⟨e, herror, rfl⟩ | ⟨hnone, hlt, rfl⟩ := exec_get_next h
  · exact ⟨_, rfl, exec_get_error (haccess.trans herror)⟩
  · have hr' := (hbyte ((accessError_eq_none_iff index s).1 hnone)).trans (readByte_of_lt hlt)
    rw [← he] at hr'
    have hget := exec_get_ok (haccess.trans hnone) hr'
    rw [he, hm] at hget
    exact ⟨_, rfl, hget⟩

/-! ### The data of an accepted GET -/

/-- The data of 42_get.md R115 once both tests are passed and byte `b` exists. `exec_get_admitted` ties it to the meaning
of GET. -/
def getElement (i : Index) (s : State) : Byte :=
  extractBits (Memory.get s.buf (byteIndex i s.ebits)) s.getMask (rotateAmount i s.ebits)

/-- Under the invariant an admitted GET completes (20_memory.md R52). -/
theorem exec_get_admitted {i : Index} {s : State} (hs : StateInv s) (ha : Admits s i) :
    exec (.get i) s = .next (respond .ok (getElement i s) s) :=
  exec_get_ok ((accessError_eq_none_iff i s).2 ha) (readByte_of_lt (hs.byteIndex_lt ha))

/-- Settles O28: the refusals are the two tests of R115 in their order; past them the data is `getElement`, whose rotation
is the library's. -/
theorem getFollowsAlgorithm : Obligations.GetFollowsAlgorithm := by
  intro index s
  refine ⟨rfl, fun hc => ?notConstructed, fun hc hi => ?outOfRange, fun hs hc hi => ?completes⟩
  case notConstructed => exact exec_get_error (accessError_of_not_constructed hc index)
  case outOfRange => exact exec_get_error (accessError_of_beyond hc hi)
  case completes =>
    refine ⟨_, readByte_of_lt (hs.byteIndex_lt ⟨hc, hi⟩), (exec_get_admitted hs ⟨hc, hi⟩).trans ?_⟩
    rw [← rotl8_eq_rotateLeft _ (Nat.mod_lt _ (by decide))]
    rfl

@[simp] theorem extractBits_zero (m : Byte) (r : Nat) : extractBits 0#8 m r = 0#8 := by
  simp [extractBits, rotl8]

theorem getElement_of_readByte {i : Index} {raw : Byte} {s : State} (hr : readByte (byteIndex i s.ebits) s = some raw) :
    getElement i s = extractBits raw s.getMask (rotateAmount i s.ebits) := by
  obtain ⟨-, rfl⟩ := (readByte_eq_some_iff _ _ _).1 hr
  rfl

/-! ### The data in the bitstream (R118 to R120) -/

/-- 10_state.md R25: the `EBITS` low bits of `GETMASK` are ones, the others zeros. -/
theorem ArrayInv.getLsbD_getMask {s : State} (h : ArrayInv s) (j : Nat) :
    s.getMask.getLsbD j = decide (j < s.ebits.toNat) := by
  rw [← BitVec.testBit_toNat, h.getMask_eq, Nat.testBit_two_pow_sub_one]

/-- The bitstream counts a byte's bits from the top (20_memory.md R43), `getLsbD` from the bottom. -/
theorem getMsbD_eq_getLsbD_seven_sub (v : Byte) {q : Nat} (hq : q < 8) : v.getMsbD q = v.getLsbD (7 - q) := by
  rw [BitVec.getMsbD_eq_getLsbD, decide_eq_true hq, Bool.true_and]

/-- The mask clears the data bits `E` and above. -/
theorem getLsbD_getElement_of_le {i : Index} {s : State} (hs : StateInv s) (ha : Admits s i) {j : Nat}
    (hj : s.ebits.toNat ≤ j) : (getElement i s).getLsbD j = false := by
  simp [getElement, extractBits, (hs.array ha.1).getLsbD_getMask, Nat.not_lt.2 hj]

/-- The rotation by `s + E` takes the bit at position `(s + k) mod 8` of byte `b` to data bit `E-1-k`. -/
theorem getLsbD_getElement {i : Index} {s : State} (hs : StateInv s) (ha : Admits s i) {k : Nat}
    (hk : k < s.ebits.toNat) : some ((getElement i s).getLsbD (s.ebits.toNat - 1 - k)) =
      bitAt (8 * byteIndex i s.ebits + (shiftOf i s.ebits + k) % 8) s := by
  have harray : ArrayInv s := hs.array ha.1
  have hle : s.ebits.toNat ≤ 8 := harray.ebits_le
  have hpos : (shiftOf i s.ebits + k) % 8 < 8 := Nat.mod_lt _ (by decide)
  have hto : (7 - (shiftOf i s.ebits + k) % 8 + rotateAmount i s.ebits % 8) % 8 = s.ebits.toNat - 1 - k := by
    unfold rotateAmount
    omega
  have hrot (raw : Byte) : (rotl8 raw (rotateAmount i s.ebits % 8)).getLsbD (s.ebits.toNat - 1 - k) =
      raw.getMsbD ((shiftOf i s.ebits + k) % 8) := by
    rw [← hto, rotationIsCircular _ _ _ (by omega) (by omega), getMsbD_eq_getLsbD_seven_sub _ hpos]
  rw [bitAt_of_byte _ hpos, readByte_of_lt (hs.byteIndex_lt ha), Option.map_some, ← hrot]
  simp only [getElement, extractBits, BitVec.getLsbD_and, harray.getLsbD_getMask]
  rw [decide_eq_true (by omega), Bool.and_true]

/-- Settles O29: the data is `getElement`, whose bits the two lemmas above give. -/
theorem getReadsItsSpanWrappedInOneByte : Obligations.GetReadsItsSpanWrappedInOneByte := by
  intro index s hs hc hi
  exact ⟨_, exec_get_admitted hs ⟨hc, hi⟩, fun _ => getLsbD_getElement hs ⟨hc, hi⟩,
    fun _ => getLsbD_getElement_of_le hs ⟨hc, hi⟩⟩

/-! ### The host's two lists are read by no command -/

/-- The same block with other lists at the host's port. -/
def withHost (ins : List Input) (out : List RspWord) (s : State) : State := { s with inputs := ins, responses := out }

theorem accessError_withHost (x : Index) (ins : List Input) (out : List RspWord) (s : State) :
    accessError x (withHost ins out s) = accessError x s :=
  accessError_congr rfl rfl x

/-- A command that completes does so, with the same response and effect, whatever the host's lists hold. -/
theorem exec_withHost {i : Instr} {s t : State} (h : exec i s = .next t) :
    ∃ r, t.responses = s.responses ++ [r] ∧
      ∀ ins out, exec i (withHost ins out s) = .next (withHost ins (out ++ [r]) t) := by
  cases i with
  | construct w l =>
    obtain ⟨hw, rfl⟩ | ⟨hw, rfl⟩ := exec_construct_next h
    · exact ⟨_, rfl, fun _ _ => exec_construct_illegal hw l _⟩
    · exact ⟨_, rfl, fun _ _ => exec_construct_legal hw l _⟩
  | set x v =>
    obtain ⟨e, he, rfl⟩ | ⟨hnone, hlt, rfl⟩ := exec_set_next h
    · exact ⟨_, rfl, fun ins out => exec_set_error ((accessError_withHost x ins out s).trans he) v⟩
    · have ha : Admits s x := (accessError_eq_none_iff x s).1 hnone
      exact ⟨_, rfl, fun ins out => exec_set_eq_setElement (s := withHost ins out s) ha hlt v⟩
  | get x =>
    obtain ⟨e, he, rfl⟩ | ⟨hnone, hlt, rfl⟩ := exec_get_next h
    · exact ⟨_, rfl, fun ins out => exec_get_error ((accessError_withHost x ins out s).trans he)⟩
    · exact ⟨_, rfl, fun ins out => exec_get_ok ((accessError_withHost x ins out s).trans hnone) (readByte_of_lt hlt)⟩

theorem stepCommand_withHost {w : Word} {s t : State} (h : stepCommand w s = .next t) :
    ∃ r, t.responses = s.responses ++ [r] ∧
      ∀ ins out, stepCommand w (withHost ins out s) = .next (withHost ins (out ++ [r]) t) := by
  obtain ⟨x, hd, rfl⟩ | ⟨i, hd, hexec⟩ := stepCommand_next h
  · exact ⟨_, rfl, fun _ _ => stepCommand_illegal hd _⟩
  · obtain ⟨r, hr, hany⟩ := exec_withHost hexec
    exact ⟨r, hr, fun ins out => (stepCommand_decoded hd _).trans (hany ins out)⟩

/-! ### A run of command words as a relation between states -/

/-- Carrying out these command words one after another leads from the first state to the second.
`Executes.runWords_eq` ties it to `runWords`. -/
inductive Executes : List Word → State → State → Prop where
  | nil (s : State) : Executes [] s s
  | cons {w : Word} {ws : List Word} {s t u : State} (first : stepCommand w s = .next t) (others : Executes ws t u) :
      Executes (w :: ws) s u

/-- The words still presented while the others run make no difference. -/
theorem Executes.runWords_eq {ws : List Word} {s t : State} (h : Executes ws s t) :
    runWords ws s = .next (accept [] t) := by
  induction h with
  | nil s => exact runWords_nil s
  | @cons w ws s t u first _ ih =>
    obtain ⟨r, hr, hany⟩ := stepCommand_withHost first
    have hpresented : stepCommand w (presenting ws s) = .next (presenting ws t) := by
      refine (hany (ws.map .command) s.responses).trans ?_
      rw [← hr]
      rfl
    rw [runWords_cons hpresented, ← ih, runWords]

theorem Executes.append {ws ws' : List Word} {s t u : State} (h : Executes ws s t) (h' : Executes ws' t u) :
    Executes (ws ++ ws') s u := by
  induction h with
  | nil => exact h'
  | cons first _ ih => exact .cons first (ih h')

theorem Executes.encode_cons {i : Instr} {ws : List Word} {s t u : State} (h : exec i s = .next t)
    (h' : Executes ws t u) : Executes (encode i :: ws) s u :=
  .cons ((stepCommand_decoded (decode_encode i) s).trans h) h'

theorem Executes.stateInv {ws : List Word} {s t : State} (h : Executes ws s t) (hs : StateInv s) : StateInv t := by
  induction h with
  | nil => exact hs
  | cons first _ ih => exact ih (stepCommand_keeps_stateInv hs first)

/-- Under the invariant every command completes (60_exceptions.md R141). -/
theorem exec_completes {s : State} (hs : StateInv s) (i : Instr) : ∃ t, exec i s = .next t := by
  cases i with
  | construct w l => exact exec_construct_completes w l s
  | set x v =>
    cases ha : accessError x s with
    | some e => exact ⟨_, exec_set_error ha v⟩
    | none => exact ⟨_, exec_set_admitted hs ((accessError_eq_none_iff x s).1 ha) v⟩
  | get x =>
    cases ha : accessError x s with
    | some e => exact ⟨_, exec_get_error ha⟩
    | none => exact ⟨_, exec_get_admitted hs ((accessError_eq_none_iff x s).1 ha)⟩

theorem stepCommand_completes {s : State} (hs : StateInv s) (w : Word) : ∃ t, stepCommand w s = .next t := by
  cases hd : decode w with
  | error r => exact ⟨_, stepCommand_illegal hd s⟩
  | ok i => exact stepCommand_decoded hd s ▸ exec_completes hs i

theorem exists_executes (ws : List Word) {s : State} (hs : StateInv s) : ∃ t, Executes ws s t := by
  induction ws generalizing s with
  | nil => exact ⟨s, .nil s⟩
  | cons w ws ih =>
    obtain ⟨t, first⟩ := stepCommand_completes hs w
    obtain ⟨u, others⟩ := ih (stepCommand_keeps_stateInv hs first)
    exact ⟨u, .cons first others⟩

/-- One response a word, and the earlier responses make no difference to the run. -/
theorem Executes.withHost {ws : List Word} {s t : State} (h : Executes ws s t) :
    ∃ rs : List RspWord, rs.length = ws.length ∧ t.responses = s.responses ++ rs ∧
      ∀ ins out, Executes ws (withHost ins out s) (withHost ins (out ++ rs) t) := by
  induction h with
  | nil s => exact ⟨[], rfl, by simp, fun ins out => by simpa using Executes.nil _⟩
  | cons first _ ih =>
    obtain ⟨r, hr, hfirst⟩ := stepCommand_withHost first
    obtain ⟨rs, hlength, hrs, hothers⟩ := ih
    refine ⟨r :: rs, by simp [hlength], by simp [hrs, hr], fun ins out => .cons (hfirst ins out) ?_⟩
    simpa using hothers ins (out ++ [r])

/-- Settles O34: GET leaves a state that differs from the one before it in the responses only, and from there the
remaining words run as they do without it. -/
theorem getInsertionIsInvisible : Obligations.GetInsertionIsInvisible := by
  intro ws ws' index s hs
  obtain ⟨mid, hbefore⟩ := exists_executes ws hs
  have hmid : StateInv mid := hbefore.stateInv hs
  obtain ⟨t, hafter⟩ := exists_executes ws' hmid
  obtain ⟨got, hget⟩ := exec_completes hmid (.get index)
  obtain ⟨⟨r, hr⟩, hgot, -⟩ := getFrame index mid got hget
  obtain ⟨rs, hlength, hrs, -⟩ := hbefore.withHost
  obtain ⟨rs', hlength', hrs', hany⟩ := hafter.withHost
  have hafterGet : Executes ws' got (withHost mid.inputs (got.responses ++ rs') t) := by
    have h := hany mid.inputs got.responses
    rwa [show withHost mid.inputs got.responses mid = got from hgot.symm] at h
  refine ⟨_, _, rs, rs', r, (hbefore.append hafter).runWords_eq,
    (hbefore.append (.encode_cons hget hafterGet)).runWords_eq, hlength, hlength', ?_, ?_, rfl⟩
  · simp [hrs', hrs]
  · simp [withHost, hr, hrs]

/-! ### What a run keeps while no array is made -/

/-- The word is not a CONSTRUCT that succeeds (40_construct.md R92). -/
def MakesNoArray (w : Word) : Prop := ∀ e l, decode w = .ok (.construct e l) → ¬ legalWidth e

theorem makesNoArray_of_refused {w : Word}
    (h : ∀ e l, decode w = .ok (.construct e l) → e = 0#4 ∨ 8 < e.toNat) : MakesNoArray w :=
  fun e l hd => not_legalWidth_of_refused (h e l hd)

theorem stepCommand_sameRegisters {w : Word} {s t : State} (h : stepCommand w s = .next t)
    (hconstruct : MakesNoArray w) : SameRegisters s t := by
  obtain ⟨r, -, rfl⟩ | ⟨i, hd, hexec⟩ := stepCommand_next h
  · exact sameRegisters_raise _ s
  · obtain hsame | ⟨e, l, rfl, he, -⟩ := exec_sameRegisters_or_construct hexec
    · exact hsame
    · exact absurd he (hconstruct e l hd)

/-- Of the bitstream only a CONSTRUCT of a legal width and a SET of the element at that position change a bit. -/
theorem exec_keeps_bit {i : Instr} {s t : State} {p : Nat} (hs : StateInv s) (h : exec i s = .next t)
    (hconstruct : ∀ w l, i = .construct w l → ¬ legalWidth w)
    (hset : ∀ x v, i = .set x v → ¬ inSpan x s.ebits p) : bitAt p t = bitAt p s := by
  cases i with
  | construct | get =>
    rw [bitAt, bitAt, exec_keeps_byte h hconstruct (by simp)]
  | set x v =>
    obtain ⟨e, -, rfl⟩ | ⟨hnone, -, rfl⟩ := exec_set_next h
    · rw [bitAt, bitAt, readByte_raise]
    · exact (bitAt_setElement hs ((accessError_eq_none_iff x s).1 hnone) v p).trans
        (if_neg fun hwritten => hset x v rfl hwritten.2)

theorem stepCommand_keeps_bit {w : Word} {s t : State} {p : Nat} (hs : StateInv s) (h : stepCommand w s = .next t)
    (hconstruct : MakesNoArray w)
    (hset : ∀ x v, decode w = .ok (.set x v) → ¬ inSpan x s.ebits p) : bitAt p t = bitAt p s := by
  obtain ⟨r, -, rfl⟩ | ⟨i, hd, hexec⟩ := stepCommand_next h
  · rw [bitAt, bitAt, readByte_raise]
  · exact exec_keeps_bit hs hexec (fun e l hi => hconstruct e l (hi ▸ hd)) (fun x v hi => hset x v (hi ▸ hd))

theorem Executes.sameRegisters {ws : List Word} {s t : State} (h : Executes ws s t)
    (hconstruct : ∀ w ∈ ws, MakesNoArray w) : SameRegisters s t := by
  induction h with
  | nil s => exact .refl s
  | cons first _ ih =>
    rw [List.forall_mem_cons] at hconstruct
    exact (stepCommand_sameRegisters first hconstruct.1).trans (ih hconstruct.2)

theorem Executes.keeps_bit {ws : List Word} {s t : State} {p : Nat} (h : Executes ws s t) (hs : StateInv s)
    (hconstruct : ∀ w ∈ ws, MakesNoArray w)
    (hset : ∀ w ∈ ws, ∀ x v, decode w = .ok (.set x v) → ¬ inSpan x s.ebits p) : bitAt p t = bitAt p s := by
  induction h with
  | nil => rfl
  | cons first _ ih =>
    rw [List.forall_mem_cons] at hconstruct hset
    have hsame := stepCommand_sameRegisters first hconstruct.1
    rw [ih (stepCommand_keeps_stateInv hs first) hconstruct.2 (hsame.ebits ▸ hset.2),
      stepCommand_keeps_bit hs first hconstruct.1 hset.1]

theorem Admits.of_sameRegisters {s t : State} {i : Index} (ha : Admits s i) (hr : SameRegisters s t) : Admits t i :=
  ⟨hr.constructed.trans ha.1, hr.len ▸ ha.2⟩

/-- A command that completes, then any words that make no array, then a GET: the run completes, and its last response is
the data of the state these words lead to. -/
theorem exists_run_then_get {i : Instr} {index : Index} {s u : State} (ws : List Word) (h : exec i s = .next u)
    (hu : StateInv u) (ha : Admits u index)
    (hconstruct : ∀ w ∈ ws, MakesNoArray w) :
    ∃ (v t : State) (rs : List RspWord), Executes ws u v ∧ StateInv v ∧ SameRegisters u v ∧
      runWords (encode i :: ws ++ [encode (.get index)]) s = .next t ∧
      t.responses = s.responses ++ rs ++ [0#3 ++ getElement index v] := by
  obtain ⟨v, hbetween⟩ := exists_executes ws hu
  have hv : StateInv v := hbetween.stateInv hu
  have hsame : SameRegisters u v := hbetween.sameRegisters hconstruct
  have hbefore : Executes (encode i :: ws) s v := .encode_cons h hbetween
  have hget := exec_get_admitted hv (ha.of_sameRegisters hsame)
  obtain ⟨rs, -, hrs, -⟩ := hbefore.withHost
  refine ⟨v, _, rs, hbetween, hv, hsame, (hbefore.append (.encode_cons hget (.nil _))).runWords_eq, ?_⟩
  rw [accept_responses, respond_responses, hrs]
  rfl

/-! ### A new array reads 0 (R124) -/

/-- Settles O20: without a SET no bit changes, so the byte GET reads is still the 0 that CONSTRUCT stored. -/
theorem newArrayReadsZero : Obligations.NewArrayReadsZero := by
  intro ebits length index ws s hpos hle hi hset hconstruct
  have hlegal : legalWidth ebits := (legalWidth_iff ebits).2 ⟨hpos, hle⟩
  have hnew : StateInv (respond .ok 0#8 (newArray ebits length s)) := (stateInv_newArray hlegal length s).respond _ _
  have hrefused : ∀ w ∈ ws, MakesNoArray w := fun w hw => makesNoArray_of_refused (hconstruct w hw)
  obtain ⟨v, t, rs, hbetween, -, hsame, hrun, hrsp⟩ :=
    exists_run_then_get ws (exec_construct_legal hlegal length s) hnew ⟨rfl, hi⟩ hrefused
  have hbytes : ∀ a, readByte a v = readByte a (respond .ok 0#8 (newArray ebits length s)) :=
    readByte_eq_of_bitAt_eq fun p => hbetween.keeps_bit hnew hrefused fun w hw x y hd => absurd hd (hset w hw x y)
  have hbyte : readByte (byteIndex index v.ebits) v = some 0#8 := by
    rw [hbytes, hsame.ebits]
    exact readByte_of_lt (hnew.byteIndex_lt ⟨rfl, hi⟩)
  rw [getElement_of_readByte hbyte, extractBits_zero] at hrsp
  exact ⟨t, rs, hrun, hrsp⟩

/-! ### Round trips through SET and GET -/

/-- Where the span lies in one byte, the data's bits are those of the span in their order. -/
theorem getLsbD_getElement_of_not_crossing {i : Index} {s : State} (hs : StateInv s) (ha : Admits s i)
    (hwhole : ¬ crossing i s.ebits) {k : Nat} (hk : k < s.ebits.toNat) :
    some ((getElement i s).getLsbD (s.ebits.toNat - 1 - k)) = bitAt (bitOffset i s.ebits + k) s := by
  have hmod : (shiftOf i s.ebits + k) % 8 = shiftOf i s.ebits + k := Nat.mod_eq_of_lt (by omega)
  rw [getLsbD_getElement hs ha hk, hmod, ← Nat.add_assoc, ← bitOffset_eq]

/-- A byte whose top `E` bits stand in the span comes back right-justified (R115). -/
theorem getElement_eq_shiftRight {i : Index} {s : State} (hs : StateInv s) (ha : Admits s i)
    (hwhole : ¬ crossing i s.ebits) {v : Byte}
    (hspan : ∀ k, k < s.ebits.toNat → bitAt (bitOffset i s.ebits + k) s = some (v.getMsbD k)) :
    getElement i s = v >>> (8 - s.ebits.toNat) := by
  have hle : s.ebits.toNat ≤ 8 := (hs.array ha.1).ebits_le
  refine BitVec.eq_of_getLsbD_eq fun j hj => ?_
  rw [BitVec.getLsbD_ushiftRight]
  by_cases hdata : j < s.ebits.toNat
  · have hk : s.ebits.toNat - 1 - j < s.ebits.toNat := by omega
    have hbit := (getLsbD_getElement_of_not_crossing hs ha hwhole hk).trans (hspan _ hk)
    rw [Nat.sub_sub_self (Nat.le_sub_one_of_lt hdata)] at hbit
    rw [Option.some.inj hbit, getMsbD_eq_getLsbD_seven_sub _ (by omega)]
    congr 1
    omega
  · rw [getLsbD_getElement_of_le hs ha (Nat.not_lt.1 hdata), BitVec.getLsbD_of_ge _ _ (by omega)]

/-- Where the span lies in one byte, SET stores the value's top `E` bits whole (41_set.md R105). -/
theorem bitAt_setElement_of_not_crossing {i : Index} {s : State} (hs : StateInv s) (ha : Admits s i)
    (hwhole : ¬ crossing i s.ebits) (v : Byte) {k : Nat} (hk : k < s.ebits.toNat) :
    bitAt (bitOffset i s.ebits + k) (setElement i v s) = some (v.getMsbD k) := by
  have hoffset := bitOffset_eq i s.ebits
  rw [bitAt_setElement hs ha, if_pos ⟨by omega, by omega, by omega⟩, Nat.add_sub_cancel_left]

/-- Settles O32: SET stores the value's top `E` bits in its span, no other element's SET changes them (41_set.md R108), and
GET returns them right-justified. -/
theorem roundTripAtNonCrossingIndex : Obligations.RoundTripAtNonCrossingIndex := by
  intro index value ws s hs hc hi hwhole hset hconstruct
  have ha : Admits s index := ⟨hc, hi⟩
  have hstored : StateInv (setElement index value s) := hs.setElement ha value
  have hrefused : ∀ w ∈ ws, MakesNoArray w := fun w hw => makesNoArray_of_refused (hconstruct w hw)
  obtain ⟨v, t, rs, hbetween, hv, hsame, hrun, hrsp⟩ :=
    exists_run_then_get ws (exec_set_admitted hs ha value) hstored ha hrefused
  have hebits : v.ebits = s.ebits := hsame.ebits
  have hspan (k : Nat) (hk : k < v.ebits.toNat) : bitAt (bitOffset index v.ebits + k) v = some (value.getMsbD k) := by
    rw [hebits] at hk ⊢
    refine .trans (hbetween.keeps_bit hstored hrefused fun w hw x y hd hother => ?_)
      (bitAt_setElement_of_not_crossing hs ha hwhole value hk)
    obtain rfl := index_eq_of_inSpan hother ⟨Nat.le_add_right _ _, Nat.add_lt_add_left hk _⟩
    exact hset w hw y hd
  have hadmits : Admits (setElement index value s) index := ha
  refine ⟨t, rs, _, hrun, hrsp, ?_⟩
  rw [getElement_eq_shiftRight hv (hadmits.of_sameRegisters hsame) (hebits ▸ hwhole) hspan, BitVec.toNat_ushiftRight,
    Nat.shiftRight_eq_div_pow, hebits]

/-- 42_get.md R122, bit by bit, with `c = s + E - 8`: data bits `c` and above are the bits of the value that SET stored at
the end of byte `b`, the lower ones the old bits at its top. -/
theorem getLsbD_getElement_setElement_of_crossing {i : Index} {old : Byte} {s : State} (hs : StateInv s)
    (ha : Admits s i) (hcross : crossing i s.ebits) (hr : readByte (byteIndex i s.ebits) s = some old) (v : Byte)
    {j : Nat} (hj : j < s.ebits.toNat) :
    (getElement i (setElement i v s)).getLsbD j =
      if j < shiftOf i s.ebits + s.ebits.toNat - 8 then old.getLsbD (j + (16 - shiftOf i s.ebits - s.ebits.toNat))
      else v.getLsbD (j - (shiftOf i s.ebits + s.ebits.toNat - 8) + shiftOf i s.ebits) := by
  have hle : s.ebits.toNat ≤ 8 := (hs.array ha.1).ebits_le
  have hshift : shiftOf i s.ebits < 8 := shiftOf_lt i s.ebits
  have hoffset := bitOffset_eq i s.ebits
  have hk : s.ebits.toNat - 1 - j < s.ebits.toNat := by omega
  have hbit := getLsbD_getElement (hs.setElement ha v) ha hk
  rw [setElement_ebits, Nat.sub_sub_self (Nat.le_sub_one_of_lt hj), bitAt_setElement hs ha] at hbit
  apply Option.some.inj
  rw [hbit]
  split_ifs with hwritten hlow hlow
  · omega
  · rw [getMsbD_eq_getLsbD_seven_sub _ (by omega)]
    congr 2
    omega
  · rw [bitAt_of_byte _ (Nat.mod_lt _ (by decide)), hr, Option.map_some, getMsbD_eq_getLsbD_seven_sub _ (by omega)]
    congr 2
    omega
  · exact absurd ⟨by omega, by omega, by omega⟩ hwritten

/-- Settles O33: the two sides agree bit by bit, in the lower `c` bits, in those of the value above them, and in the
zeros from `E` on. -/
theorem roundTripAtCrossingIndex : Obligations.RoundTripAtCrossingIndex := by
  intro index value s hs hc hi hcross
  have ha : Admits s index := ⟨hc, hi⟩
  have hstored : StateInv (setElement index value s) := hs.setElement ha value
  obtain ⟨old, hr⟩ : ∃ old, readByte (byteIndex index s.ebits) s = some old := ⟨_, readByte_of_lt (hs.byteIndex_lt ha)⟩
  refine ⟨setElement index value s, old, getElement index (setElement index value s), hr,
    exec_set_admitted hs ha value, exec_get_admitted hstored ha, Nat.eq_of_testBit_eq fun j => ?_⟩
  have hle : s.ebits.toNat ≤ 8 := (hs.array hc).ebits_le
  have hshift : shiftOf index s.ebits < 8 := shiftOf_lt index s.ebits
  have hbits : 16 - shiftOf index s.ebits - s.ebits.toNat + (shiftOf index s.ebits + s.ebits.toNat - 8) = 8 := by
    unfold crossing at hcross
    omega
  have hold : old.toNat / 2 ^ (16 - shiftOf index s.ebits - s.ebits.toNat) <
      2 ^ (shiftOf index s.ebits + s.ebits.toNat - 8) :=
    Nat.div_lt_of_lt_mul (by rw [← pow_add, hbits]; exact old.isLt)
  rw [Nat.mul_comm, Nat.testBit_two_pow_mul_add _ hold, Nat.testBit_div_two_pow, Nat.testBit_div_two_pow,
    BitVec.testBit_toNat, BitVec.testBit_toNat, BitVec.testBit_toNat]
  by_cases hdata : j < s.ebits.toNat
  · rw [getLsbD_getElement_setElement_of_crossing hs ha hcross hr value hdata]
  · rw [getLsbD_getElement_of_le hstored ha (Nat.not_lt.1 hdata), if_neg (by omega), BitVec.getLsbD_of_ge _ _ (by omega)]

end Sys2Proof.Machine
end

section
/-! PROOFS of the family 60_exceptions.md: which error a command raises, as a function of its decoding and of
`CONSTRUCTED` and `LEN`; that a run of words is answered word by word, and that an errored command leaves no trace but
its response. -/

namespace Sys2Proof.Machine

/-! ### Every word is answered (R141) -/

/-- Settles O14: under the invariant the words can be carried out one after another, each with its one response. -/
theorem everyCommandIsAnswered : Obligations.EveryCommandIsAnswered := by
  intro ws s hs
  obtain ⟨t, hexec⟩ := exists_executes ws hs
  obtain ⟨rs, hlength, hrs, -⟩ := hexec.withHost
  exact ⟨accept [] t, rs, hexec.runWords_eq, (hexec.stateInv hs).accept [], rfl, hrs, hlength⟩

/-- Settles O12: the hypothesis lists the words that fit no row of the opcode table. -/
theorem illegalWordAnswered : Obligations.IllegalWordAnswered := by
  intro s w rest hin hfields
  obtain ⟨x, hd⟩ := (decode_eq_error_iff_fields w).2 hfields
  calc step s = stepCommand w (accept rest s) := step_command hin
    _ = .next (raise .illegalCommand (accept rest s)) := stepCommand_illegal hd _

/-! ### The two tests before SET and GET (R132, R134) -/

theorem accessError_cases (i : Index) (s : State) :
    (s.constructed = false ∧ accessError i s = some .notConstructed) ∨
    (s.constructed = true ∧ s.len < i ∧ accessError i s = some .indexOutOfRange) ∨
    (Admits s i ∧ accessError i s = none) := by
  cases hc : s.constructed with
  | false => exact .inl ⟨rfl, accessError_of_not_constructed hc i⟩
  | true =>
    by_cases hi : s.len < i
    · exact .inr (.inl ⟨rfl, hi, accessError_of_beyond hc hi⟩)
    · have ha : Admits s i := ⟨hc, BitVec.not_lt.1 hi⟩
      exact .inr (.inr ⟨ha, (accessError_eq_none_iff i s).2 ha⟩)

@[simp] theorem accessError_eq_notConstructed_iff (i : Index) (s : State) :
    accessError i s = some .notConstructed ↔ s.constructed = false := by
  obtain ⟨hc, ha⟩ | ⟨hc, -, ha⟩ | ⟨⟨hc, -⟩, ha⟩ := accessError_cases i s <;> simp [hc, ha]

@[simp] theorem accessError_eq_indexOutOfRange_iff (i : Index) (s : State) :
    accessError i s = some .indexOutOfRange ↔ s.constructed = true ∧ s.len < i := by
  obtain ⟨hc, ha⟩ | ⟨hc, hi, ha⟩ | ⟨⟨hc, hi⟩, ha⟩ := accessError_cases i s
  · simp [hc, ha]
  · simp [hc, hi, ha]
  · simp [hc, ha, BitVec.not_lt.2 hi]

@[simp] theorem accessError_ne_illegalCommand (i : Index) (s : State) : accessError i s ≠ some .illegalCommand := by
  obtain ⟨-, ha⟩ | ⟨-, -, ha⟩ | ⟨-, ha⟩ := accessError_cases i s <;> simp [ha]

@[simp] theorem accessError_ne_invalidConfiguration (i : Index) (s : State) :
    accessError i s ≠ some .invalidConfiguration := by
  obtain ⟨-, ha⟩ | ⟨-, -, ha⟩ | ⟨-, ha⟩ := accessError_cases i s <;> simp [ha]

/-! ### The error of a word (R132 to R135, R137) -/

/-- The error raised by a word that decodes to `d`, none for a command that is carried out. `stepCommand_of_wordError`
and `stepCommand_next_wordError` tie it to the meanings of the commands. -/
def wordError (d : Except DecodeError Instr) (s : State) : Option Error :=
  match d with
  | .error _ => some .illegalCommand
  | .ok (.construct e _) => if legalWidth e then none else some .invalidConfiguration
  | .ok (.set i _) => accessError i s
  | .ok (.get i) => accessError i s

@[simp] theorem wordError_error (x : DecodeError) (s : State) : wordError (.error x) s = some .illegalCommand := rfl

@[simp] theorem wordError_construct (e : Width) (l : Index) (s : State) :
    wordError (.ok (.construct e l)) s = if legalWidth e then none else some .invalidConfiguration := rfl

@[simp] theorem wordError_set (i : Index) (v : Byte) (s : State) :
    wordError (.ok (.set i v)) s = accessError i s := rfl

@[simp] theorem wordError_get (i : Index) (s : State) : wordError (.ok (.get i)) s = accessError i s := rfl

/-- R140: whether a command errs is settled without the buffer, by `CONSTRUCTED` and `LEN`. -/
theorem wordError_congr {s s' : State} (hc : s'.constructed = s.constructed) (hl : s'.len = s.len)
    (d : Except DecodeError Instr) : wordError d s' = wordError d s := by
  match d with
  | .error _ => rfl
  | .ok (.construct _ _) => rfl
  | .ok (.set i _) => exact accessError_congr hc hl i
  | .ok (.get i) => exact accessError_congr hc hl i

theorem exec_of_wordError {i : Instr} {s : State} {e : Error} (h : wordError (.ok i) s = some e) :
    exec i s = .next (raise e s) := by
  cases i with
  | construct w l =>
    by_cases hw : legalWidth w
    · simp [hw] at h
    · obtain rfl : Error.invalidConfiguration = e := by simpa [hw] using h
      exact exec_construct_illegal hw l s
  | set x v => exact exec_set_error h v
  | get x => exact exec_get_error h

theorem stepCommand_of_wordError {w : Word} {s : State} {e : Error} (h : wordError (decode w) s = some e) :
    stepCommand w s = .next (raise e s) := by
  cases hd : decode w with
  | error x =>
    obtain rfl : Error.illegalCommand = e := by simpa [hd] using h
    exact stepCommand_illegal hd s
  | ok i =>
    rw [hd] at h
    exact (stepCommand_decoded hd s).trans (exec_of_wordError h)

/-- A command that raises no error and completes is answered `OK`. -/
theorem exec_ok_of_wordError_none {i : Instr} {s t : State} (h : exec i s = .next t)
    (hnone : wordError (.ok i) s = none) : ∃ d, t.responses = s.responses ++ [responseWord .ok d] := by
  cases i with
  | construct w l =>
    obtain ⟨hw, -⟩ | ⟨-, rfl⟩ := exec_construct_next h
    · simp [hw] at hnone
    · exact ⟨_, rfl⟩
  | set x v =>
    obtain ⟨e, he, -⟩ | ⟨-, -, rfl⟩ := exec_set_next h
    · cases he.symm.trans hnone
    · exact ⟨_, rfl⟩
  | get x =>
    obtain ⟨e, he, -⟩ | ⟨-, -, rfl⟩ := exec_get_next h
    · cases he.symm.trans hnone
    · exact ⟨_, rfl⟩

/-- A word that is answered raised an error and did nothing else, or is answered `OK`. -/
theorem stepCommand_next_wordError {w : Word} {s t : State} (h : stepCommand w s = .next t) :
    (∃ e, wordError (decode w) s = some e ∧ t = raise e s) ∨
    (wordError (decode w) s = none ∧ ∃ d, t.responses = s.responses ++ [responseWord .ok d]) := by
  cases he : wordError (decode w) s with
  | some e => exact .inl ⟨e, rfl, Host.Outcome.next.inj (h.symm.trans (stepCommand_of_wordError he))⟩
  | none =>
    obtain ⟨x, hd, -⟩ | ⟨i, hd, hexec⟩ := stepCommand_next h
    · simp [hd] at he
    · exact .inr ⟨rfl, exec_ok_of_wordError_none hexec (hd ▸ he)⟩

/-! ### The status of the response (R131) -/

theorem statusCode_errorStatus_ne_zero (e : Error) : statusCode (errorStatus e) ≠ 0#3 := by
  cases e <;> decide

theorem statusCode_errorStatus_inj {e e' : Error} :
    statusCode (errorStatus e) = statusCode (errorStatus e') ↔ e = e' := by
  cases e <;> cases e' <;> decide

/-- The response's status says which error was raised. -/
theorem rspStatus_eq_errorStatus_iff {w : Word} {s t : State} {r : RspWord} (h : stepCommand w s = .next t)
    (hr : t.responses = s.responses ++ [r]) (e : Error) :
    rspStatus r = statusCode (errorStatus e) ↔ wordError (decode w) s = some e := by
  obtain ⟨e', he', rfl⟩ | ⟨hnone, d, hd⟩ := stepCommand_next_wordError h
  · obtain rfl : responseWord (errorStatus e') 0#8 = r := by simpa using hr
    rw [he', rspStatus_responseWord, statusCode_errorStatus_inj, Option.some.injEq]
  · obtain rfl : responseWord .ok d = r := by simpa using hd.symm.trans hr
    rw [hnone, rspStatus_responseWord]
    exact iff_of_false (statusCode_errorStatus_ne_zero e).symm (by simp)

/-- A non-zero status reports an error, and then `raise` is all that happened (R140). -/
theorem exists_raised_of_rspStatus_ne_zero {w : Word} {s t : State} {r : RspWord} (h : stepCommand w s = .next t)
    (hr : t.responses = s.responses ++ [r]) (hne : rspStatus r ≠ 0#3) :
    ∃ e, wordError (decode w) s = some e ∧ t = raise e s ∧ r = responseWord (errorStatus e) 0#8 := by
  obtain ⟨e, he, rfl⟩ | ⟨-, d, hd⟩ := stepCommand_next_wordError h
  · exact ⟨e, he, rfl, by simpa using hr.symm⟩
  · obtain rfl : responseWord .ok d = r := by simpa using hd.symm.trans hr
    exact absurd (rspStatus_responseWord .ok d) hne

/-! ### Exactly when each error is raised -/

theorem wordError_eq_illegalCommand_iff (d : Except DecodeError Instr) (s : State) :
    wordError d s = some .illegalCommand ↔ ∃ x, d = .error x := by
  match d with
  | .error x => simp
  | .ok (.construct e l) => simp
  | .ok (.set i v) => simp
  | .ok (.get i) => simp

theorem wordError_eq_invalidConfiguration_iff (d : Except DecodeError Instr) (s : State) :
    wordError d s = some .invalidConfiguration ↔ ∃ e l, d = .ok (.construct e l) ∧ (e = 0#4 ∨ 8 < e.toNat) := by
  match d with
  | .error x => simp
  | .ok (.construct e l) => simp [Config.maxElementBits, or_iff_not_imp_left]
  | .ok (.set i v) => simp
  | .ok (.get i) => simp

theorem wordError_eq_notConstructed_iff (d : Except DecodeError Instr) (s : State) :
    wordError d s = some .notConstructed ↔
      s.constructed = false ∧ ((∃ i v, d = .ok (.set i v)) ∨ ∃ i, d = .ok (.get i)) := by
  match d with
  | .error x => simp
  | .ok (.construct e l) => simp
  | .ok (.set i v) => simp
  | .ok (.get i) => simp

theorem wordError_eq_indexOutOfRange_iff (d : Except DecodeError Instr) (s : State) :
    wordError d s = some .indexOutOfRange ↔ s.constructed = true ∧
      ((∃ i v, d = .ok (.set i v) ∧ s.len < i) ∨ ∃ i, d = .ok (.get i) ∧ s.len < i) := by
  match d with
  | .error x => simp
  | .ok (.construct e l) => simp
  | .ok (.set i v) => simp
  | .ok (.get i) => simp

/-- Settles O37: each status is the code of one error, and `wordError` says when that error is raised. -/
theorem errorsRaisedExactlyWhen : Obligations.ErrorsRaisedExactlyWhen := by
  intro s w rest hs hin
  obtain ⟨t, hcmd⟩ := stepCommand_completes (hs.accept rest) w
  obtain ⟨-, r, hr⟩ := stepCommand_answers_once hcmd
  have hstatus := rspStatus_eq_errorStatus_iff hcmd hr
  refine ⟨t, r, (step_command hin).trans hcmd, hr,
    (hstatus .illegalCommand).trans (wordError_eq_illegalCommand_iff _ _),
    (hstatus .invalidConfiguration).trans (wordError_eq_invalidConfiguration_iff _ _),
    (hstatus .notConstructed).trans (wordError_eq_notConstructed_iff _ _),
    (hstatus .indexOutOfRange).trans (wordError_eq_indexOutOfRange_iff _ _), fun hne => ?_⟩
  obtain ⟨e, -, rfl, rfl⟩ := exists_raised_of_rspStatus_ne_zero hcmd hr hne
  exact ⟨rspData_responseWord _ _, rfl⟩

/-! ### An errored command leaves no trace but its response -/

/-- Settles O38: the error depends on the word, `CONSTRUCTED` and `LEN`, so other buffer contents raise the same one. -/
theorem errorsLeaveStateUntouched : Obligations.ErrorsLeaveStateUntouched := by
  intro s t w rest r hin h hr hne
  have hcmd : stepCommand w (accept rest s) = .next t := (step_command hin).symm.trans h
  obtain ⟨e, he, rfl, rfl⟩ := exists_raised_of_rspStatus_ne_zero hcmd hr hne
  refine ⟨rfl, fun m => ?_⟩
  have hother : wordError (decode w) (accept rest { s with buf := m }) = some e :=
    (wordError_congr rfl rfl (decode w)).trans he
  exact (step_command (s := { s with buf := m }) hin).trans (stepCommand_of_wordError hother)

/-- Settles O39: the error leaves the old state with one more response, and a run does not read the responses. -/
theorem erroredCommandIsInvisible : Obligations.ErroredCommandIsInvisible := by
  intro w ws s u r hs hu hr hne
  obtain ⟨mid, hcmd⟩ := stepCommand_completes hs w
  have hmid : accept [] mid = u :=
    Host.Outcome.next.inj ((Executes.cons hcmd (.nil mid)).runWords_eq.symm.trans hu)
  have hrmid : mid.responses = s.responses ++ [r] := (congrArg State.responses hmid).trans hr
  obtain ⟨e, -, rfl, rfl⟩ := exists_raised_of_rspStatus_ne_zero hcmd hrmid hne
  obtain ⟨t, hwithout⟩ := exists_executes ws hs
  obtain ⟨rs, -, hrs, hany⟩ := hwithout.withHost
  have hwith := Executes.cons hcmd (hany s.inputs (raise e s).responses)
  exact ⟨_, _, rs, hwithout.runWords_eq, hwith.runWords_eq, hrs, by simp [withHost], rfl⟩

end Sys2Proof.Machine
end

section
/-! PROOFS of the family 70_reset_and_hazards.md: what a reset leaves, and that two machines without an array can be told
apart by the host's lists only, so that no run depends on what R155 leaves unspecified. -/

namespace Sys2Proof.Machine

/-- Settles O9: the reset state keeps of the old one the host's two lists alone. -/
theorem resetReplacesAnyState : Obligations.ResetReplacesAnyState := fun _ _ hin => step_reset hin

/-! ### Steps without an array (R156) -/

/-- Neither machine has an array, and the host's lists are equal; nothing is said of the five registers and the buffer
that R155 leaves unspecified. -/
structure BothUnconstructed (s s' : State) : Prop where
  left : s.constructed = false
  right : s'.constructed = false
  inputs : s'.inputs = s.inputs
  responses : s'.responses = s.responses

theorem BothUnconstructed.accept {s s' : State} (h : BothUnconstructed s s') (rest : List Input) :
    BothUnconstructed (accept rest s) (accept rest s') :=
  ⟨h.left, h.right, rfl, h.responses⟩

theorem BothUnconstructed.raise {s s' : State} (h : BothUnconstructed s s') (e : Error) :
    BothUnconstructed (raise e s) (raise e s') :=
  ⟨h.left, h.right, h.inputs, congrArg (· ++ [responseWord (errorStatus e) 0#8]) h.responses⟩

theorem BothUnconstructed.resetBlock_eq {s s' : State} (h : BothUnconstructed s s') : resetBlock s' = resetBlock s := by
  rw [resetBlock, resetBlock, h.inputs, h.responses]

theorem BothUnconstructed.newArray_eq {s s' : State} (h : BothUnconstructed s s') (e : Width) (l : Index) :
    newArray e l s' = newArray e l s := by
  rw [newArray_eq_newArray e l s s', h.inputs, h.responses]
  rfl

/-- R156: without an array the word alone settles what happens. It raises an error, the same in every such state, or it
is a CONSTRUCT that succeeds. -/
theorem stepCommand_without_array (w : Word) :
    (∃ e, ∀ s : State, s.constructed = false → stepCommand w s = .next (raise e s)) ∨
    (∃ e l, legalWidth e ∧ ∀ s, stepCommand w s = .next (respond .ok 0#8 (newArray e l s))) := by
  cases hd : decode w with
  | error r => exact .inl ⟨_, fun s _ => stepCommand_illegal hd s⟩
  | ok i =>
    simp only [stepCommand_decoded hd]
    cases i with
    | construct e l =>
      by_cases he : legalWidth e
      · exact .inr ⟨e, l, he, exec_construct_legal he l⟩
      · exact .inl ⟨_, fun s _ => exec_construct_illegal he l s⟩
    | set x v => exact .inl ⟨_, fun _ hc => exec_set_error (accessError_of_not_constructed hc x) v⟩
    | get x => exact .inl ⟨_, fun _ hc => exec_get_error (accessError_of_not_constructed hc x)⟩

/-! ### Two machines the host cannot tell apart -/

/-- What every step keeps: the two machines have no array and equal host lists, or they are one and the same state. The
invariant (10_state.md R33) is there so that the run of an array never stops; it need not hold before the first reset
or CONSTRUCT. -/
def Indistinguishable (s s' : State) : Prop := BothUnconstructed s s' ∨ (s' = s ∧ StateInv s)

theorem Indistinguishable.responses {s s' : State} : Indistinguishable s s' → s'.responses = s.responses
  | .inl h => h.responses
  | .inr ⟨h, _⟩ => congrArg State.responses h

theorem Indistinguishable.inputs {s s' : State} : Indistinguishable s s' → s'.inputs = s.inputs
  | .inl h => h.inputs
  | .inr ⟨h, _⟩ => congrArg State.inputs h

theorem Indistinguishable.constructed {s s' : State} : Indistinguishable s s' → s'.constructed = s.constructed
  | .inl h => h.right.trans h.left.symm
  | .inr ⟨h, _⟩ => congrArg State.constructed h

theorem Indistinguishable.eq_of_constructed {s s' : State} (h : Indistinguishable s s') (hc : s.constructed = true) :
    s' = s := by
  obtain hno | ⟨heq, -⟩ := h
  · simp [hno.left] at hc
  · exact heq

/-- Under the invariant every step completes (60_exceptions.md R141). -/
theorem step_completes {s : State} (hs : StateInv s) : ∃ t, step s = .next t := by
  match hin : s.inputs with
  | [] => exact ⟨_, step_idle hin⟩
  | .reset :: rest => exact ⟨_, step_reset hin⟩
  | .command w :: rest =>
    rw [step_command hin]
    exact stepCommand_completes (hs.accept rest) w

theorem stepCommand_both_unconstructed {s s' : State} (h : BothUnconstructed s s') (w : Word) :
    ∃ t t', stepCommand w s = .next t ∧ stepCommand w s' = .next t' ∧ Indistinguishable t t' := by
  obtain ⟨e, hraise⟩ | ⟨e, l, he, hnew⟩ := stepCommand_without_array w
  · exact ⟨_, _, hraise s h.left, hraise s' h.right, .inl (h.raise e)⟩
  · exact ⟨_, _, hnew s, hnew s',
      .inr ⟨congrArg (respond .ok 0#8) (h.newArray_eq e l), (stateInv_newArray he l s).respond _ _⟩⟩

theorem step_both_unconstructed {s s' : State} (h : BothUnconstructed s s') :
    ∃ t t', step s = .next t ∧ step s' = .next t' ∧ Indistinguishable t t' := by
  match hin : s.inputs with
  | [] => exact ⟨s, s', step_idle hin, step_idle (h.inputs.trans hin), .inl h⟩
  | .reset :: rest =>
    exact ⟨_, _, step_reset hin, step_reset (h.inputs.trans hin),
      .inr ⟨(h.accept rest).resetBlock_eq, stateInv_resetBlock _⟩⟩
  | .command w :: rest =>
    rw [step_command hin, step_command (h.inputs.trans hin)]
    exact stepCommand_both_unconstructed (h.accept rest) w

theorem step_indistinguishable {s s' : State} (h : Indistinguishable s s') :
    ∃ t t', step s = .next t ∧ step s' = .next t' ∧ Indistinguishable t t' := by
  obtain hno | ⟨rfl, hs⟩ := h
  · exact step_both_unconstructed hno
  · obtain ⟨t, ht⟩ := step_completes hs
    exact ⟨t, t, ht, ht, .inr ⟨rfl, stepKeepsInvariant _ t hs ht⟩⟩

theorem run_indistinguishable (k : Nat) {s s' : State} (h : Indistinguishable s s') :
    ∃ t t', Host.Core.run Sys2Proof.core k s = .next t ∧ Host.Core.run Sys2Proof.core k s' = .next t' ∧
      Indistinguishable t t' := by
  induction k generalizing s s' with
  | zero => exact ⟨s, s', run_zero s, run_zero s', h⟩
  | succ k ih =>
    obtain ⟨u, u', hu, hu', hnext⟩ := step_indistinguishable h
    rw [run_next hu, run_next hu']
    exact ih hnext

/-- Settles O47: any number of steps leaves the two machines indistinguishable, and one with an array is the other. -/
theorem unspecifiedRegistersNeverObserved : Obligations.UnspecifiedRegistersNeverObserved := by
  intro s s' k hc hc' hinputs hresponses
  obtain ⟨t, t', ht, ht', h⟩ := run_indistinguishable k (.inl ⟨hc, hc', hinputs, hresponses⟩)
  exact ⟨t, t', ht, ht', h.responses, h.inputs, h.constructed, h.eq_of_constructed⟩

end Sys2Proof.Machine
end

section
/-! PROOFS of the family other: a step with nothing presented. -/

namespace Sys2Proof.Machine

/-- Settles O10: `step_idle` says it of every state with an empty input list. -/
theorem idleBlockWaits : Obligations.IdleBlockWaits := fun _ hidle => step_idle hidle

end Sys2Proof.Machine
end
